-- ==== Sys2Proof/Word.lean ====
section
/-! DEFINITION. The word types of the machine and its exact measure of elapsed time (spec/00_scope.md R6, R9;
spec/10_state.md R31). All quantities are unsigned. -/

namespace Sys2Proof

/-- A general register, a timer, the stack pointer, a byte of memory (R6: `REG_W`, `TIMER_W`, `SP_W` = 8). -/
abbrev Byte := BitVec 8

/-- The index register, the program counter, a stack entry, an instruction word (R6: `I_W`, `PC_W` = 16). -/
abbrev Word := BitVec 16

/-- A register number, `x` or `y` of an instruction: 0 to 15 (R21, R91). -/
abbrev Reg := Fin 16

/-- `VF`, register 15 (R21). -/
abbrev VF : Reg := 15

/-- An amount of time in seconds: an exact non-negative rational in lowest terms (R31; decision D15). -/
structure Seconds where
  /-- the numerator -/
  num : Nat
  /-- the denominator -/
  den : Nat
  /-- the denominator is positive -/
  den_pos : 0 < den := by decide
  /-- the fraction is in lowest terms, so that equal times are equal data -/
  reduced : Nat.gcd num den = 1 := by decide
deriving DecidableEq, Repr

namespace Seconds

/-- No time. -/
def zero : Seconds := { num := 0, den := 1 }

/-- `n / d` seconds in lowest terms. -/
def ofFraction (n d : Nat) (h : 0 < d) : Seconds where
  num := n / Nat.gcd n d
  den := d / Nat.gcd n d
  den_pos := Nat.div_pos (Nat.le_of_dvd h (Nat.gcd_dvd_right n d)) (Nat.gcd_pos_of_pos_right n h)
  reduced := Nat.coprime_div_gcd_div_gcd (Nat.gcd_pos_of_pos_right n h)

/-- The time as a rational number, the form in which statements speak of it. -/
def toRat (t : Seconds) : ℚ := (t.num : ℚ) / (t.den : ℚ)

end Seconds

end Sys2Proof
end

