-- ==== Sys2Proof/Config.lean ====
section
/-! DEFINITION. What is fixed for one machine: the constants of spec/00_scope.md R6, the open parameters of R7,
and the free values (what the host and the environment supply where no schedule of inputs is given). The
parameters' defaults stand in Sys2Proof/Machine/Parameters.lean. -/

namespace Sys2Proof

/-- `SHIFT_FLAG_SOURCE`: whether a shift takes its flag from the register before or after the shift (R7, R204). -/
inductive ShiftFlagSource where
  /-- the bit shifted out (the default) -/
  | before
  /-- the same bit position of the shifted result -/
  | after
deriving DecidableEq, Repr

/-- The five open parameters of R7. They are no state of the machine (R38): no step changes them. -/
structure Config where
  /-- `DISPLAY_W`, the columns of the display -/
  displayW : Nat
  /-- `DISPLAY_H`, the rows of the display -/
  displayH : Nat
  /-- `SHIFT_FLAG_SOURCE` -/
  shiftFlagSource : ShiftFlagSource
  /-- `FAMILY0_STRICT`: whether `CLS` and `RET` require bits 11:8 to be zero -/
  family0Strict : Bool
  /-- `FONT`: the 80 bytes that reset puts at 0x000 to 0x04F -/
  font : Vector Byte 80
deriving DecidableEq, Repr

namespace Config

/-- R7's constraints: the pixels of one sprite never land on the same framebuffer cell. -/
def wf (c : Config) : Bool := decide (8 ≤ c.displayW) && decide (15 ≤ c.displayH)

/-- `DISPLAY_W * DISPLAY_H`, the number of framebuffer cells. -/
def cells (c : Config) : Nat := c.displayW * c.displayH

/-- The `UpdateKeyboard` the host makes before cycle `n`, if any: a FREE VALUE (R301, log entry 5). -/
opaque freeKeys : Nat → Option (Vector Bool 16)

/-- Numerator of the elapsed time the host reports to cycle `n`: a FREE VALUE (R14, R157, log entry 5). -/
opaque freeDeltaNum : Nat → Nat

/-- One less than the denominator of the elapsed time of cycle `n`: a FREE VALUE (R14, R157, log entry 5). -/
opaque freeDeltaDen : Nat → Nat

/-- The random byte of cycle `n`: a FREE VALUE, any byte, under no law (R37, R207, log entry 5). -/
opaque freeRnd : Nat → Byte

end Config

/-- `MEM_SIZE`: the bytes of memory (R6). -/
abbrev memSize : Nat := 4096
/-- `FONT_BYTES`: the font fills 0x000 to 0x04F (R6). -/
abbrev fontBytes : Nat := 80
/-- `GLYPH_BYTES`: the bytes of a glyph (R6). -/
abbrev glyphBytes : Nat := 5
/-- `PROG_BASE`: where a program is loaded and where `pc` starts (R6). -/
abbrev progBase : Nat := 0x200
/-- `PROG_MAX`: the longest program image (R6). -/
abbrev progMax : Nat := 3584
/-- `STACK_DEPTH`: the return addresses the call stack holds (R6). -/
abbrev stackDepth : Nat := 16

end Sys2Proof
end

