-- ==== Sys2Proof/Machine/Parameters.lean ====
section
/-! DEFINITION. The defaults of the open parameters (spec/00_scope.md R7; log entry 2): the values `State.reset` uses.
Every rule holds for any other values too, which a state carries in its field `cfg`. -/

namespace Sys2Proof

/-- The standard CHIP-8 hexadecimal font, glyph `d` at bytes `5*d .. 5*d + 4` (R33; decision D4: no source backs it). -/
def defaultFontBytes : List Byte :=
  ([0xF0, 0x90, 0x90, 0x90, 0xF0] ++ [0x20, 0x60, 0x20, 0x20, 0x70] ++
    [0xF0, 0x10, 0xF0, 0x80, 0xF0] ++ [0xF0, 0x10, 0xF0, 0x10, 0xF0]) ++
   ([0x90, 0x90, 0xF0, 0x10, 0x10] ++ [0xF0, 0x80, 0xF0, 0x10, 0xF0] ++
    [0xF0, 0x80, 0xF0, 0x90, 0xF0] ++ [0xF0, 0x10, 0x20, 0x40, 0x40]) ++
   ([0xF0, 0x90, 0xF0, 0x90, 0xF0] ++ [0xF0, 0x90, 0xF0, 0x10, 0xF0] ++
    [0xF0, 0x90, 0xF0, 0x90, 0x90] ++ [0xE0, 0x90, 0xE0, 0x90, 0xE0]) ++
   ([0xF0, 0x80, 0x80, 0x80, 0xF0] ++ [0xE0, 0x90, 0x90, 0x90, 0xE0] ++
    [0xF0, 0x80, 0xF0, 0x80, 0xF0] ++ [0xF0, 0x80, 0xF0, 0x80, 0x80])

/-- The default value of the parameter `FONT`. -/
def defaultFont : Vector Byte 80 := ⟨defaultFontBytes.toArray, rfl⟩

/-- The default parameters: a 64 by 32 display (90_conflicts.md C1), the flag of a shift taken before it (C3),
`FAMILY0_STRICT` off (decision D5), the standard font. -/
def defaultConfig : Config where
  displayW := 64
  displayH := 32
  shiftFlagSource := .before
  family0Strict := false
  font := defaultFont

end Sys2Proof
end

