-- ==== Sys2Proof/Syntax.lean ====
section
/-! DEFINITION. The instructions: one constructor per row of spec/opcode_table.json, in tag order
(spec/30_encoding.md R94, spec/40_decoder.md R123), and the shapes the decoder answers with. -/

namespace Sys2Proof

/-- The 34 instruction kinds with their operands (R94). `x`, `y` are register numbers, `kk` an 8-bit immediate,
`nnn` a 12-bit address, `n` a row count. `cls` and `ret` also carry bits 11:8 of their word, which select nothing
(R102): they are tested only under `FAMILY0_STRICT`. `shr` and `shl` carry `y`, which is decoded and not used (R102). -/
inductive Instr where
  /-- tag 0, `00E0`: clear the display -/
  | cls (ignored : Fin 16)
  /-- tag 1, `00EE`: return from subroutine -/
  | ret (ignored : Fin 16)
  /-- tag 2, `1nnn`: jump -/
  | jp (nnn : BitVec 12)
  /-- tag 3, `2nnn`: call subroutine -/
  | call (nnn : BitVec 12)
  /-- tag 4, `3xkk`: skip if equal, immediate -/
  | seVxKk (x : Reg) (kk : Byte)
  /-- tag 5, `4xkk`: skip if not equal, immediate -/
  | sneVxKk (x : Reg) (kk : Byte)
  /-- tag 6, `5xy0`: skip if equal, registers -/
  | seVxVy (x y : Reg)
  /-- tag 7, `6xkk`: load immediate -/
  | ldVxKk (x : Reg) (kk : Byte)
  /-- tag 8, `7xkk`: add immediate, no flag -/
  | addVxKk (x : Reg) (kk : Byte)
  /-- tag 9, `8xy0`: copy register -/
  | ldVxVy (x y : Reg)
  /-- tag 10, `8xy1`: bitwise or -/
  | or (x y : Reg)
  /-- tag 11, `8xy2`: bitwise and -/
  | and (x y : Reg)
  /-- tag 12, `8xy3`: bitwise exclusive or -/
  | xor (x y : Reg)
  /-- tag 13, `8xy4`: add with carry out -/
  | addVxVy (x y : Reg)
  /-- tag 14, `8xy5`: subtract -/
  | sub (x y : Reg)
  /-- tag 15, `8xy6`: shift right by one -/
  | shr (x y : Reg)
  /-- tag 16, `8xy7`: reverse subtract -/
  | subn (x y : Reg)
  /-- tag 17, `8xyE`: shift left by one -/
  | shl (x y : Reg)
  /-- tag 18, `9xy0`: skip if not equal, registers -/
  | sneVxVy (x y : Reg)
  /-- tag 19, `Annn`: load the index register -/
  | ldINnn (nnn : BitVec 12)
  /-- tag 20, `Bnnn`: jump with offset `V0` -/
  | jpV0Nnn (nnn : BitVec 12)
  /-- tag 21, `Cxkk`: random byte and immediate -/
  | rnd (x : Reg) (kk : Byte)
  /-- tag 22, `Dxyn`: draw a sprite of `n` rows -/
  | drw (x y : Reg) (n : Fin 16)
  /-- tag 23, `Ex9E`: skip if key down -/
  | skp (x : Reg)
  /-- tag 24, `ExA1`: skip if key up -/
  | sknp (x : Reg)
  /-- tag 25, `Fx07`: read the delay timer -/
  | ldVxDt (x : Reg)
  /-- tag 26, `Fx0A`: wait for a key -/
  | ldVxK (x : Reg)
  /-- tag 27, `Fx15`: set the delay timer -/
  | ldDtVx (x : Reg)
  /-- tag 28, `Fx18`: set the sound timer -/
  | ldStVx (x : Reg)
  /-- tag 29, `Fx1E`: add to the index register -/
  | addIVx (x : Reg)
  /-- tag 30, `Fx29`: address of a font glyph -/
  | ldFVx (x : Reg)
  /-- tag 31, `Fx33`: store decimal digits -/
  | ldBVx (x : Reg)
  /-- tag 32, `Fx55`: store registers `V0` to `Vx` -/
  | ldMemVx (x : Reg)
  /-- tag 33, `Fx65`: load registers `V0` to `Vx` -/
  | ldVxMem (x : Reg)
deriving DecidableEq, Repr

/-- Why bytes are no instruction. -/
inductive DecodeError where
  /-- the word matches none of the 34 rows (R100, R126) -/
  | unsupported (word : Word)
  /-- fewer than the two bytes every instruction has (R90); the cycle's fetch never gives the decoder so few -/
  | tooShort
deriving DecidableEq, Repr

/-- One row of the opcode map: the word `op` is this kind iff `op & mask = match` (R94). -/
structure OpcodeRow where
  /-- the kind's number in R123 -/
  tag : Nat
  /-- the bits the row fixes -/
  mask : Word
  /-- their values -/
  value : Word
deriving DecidableEq, Repr

/-- The outputs of the decoder as a combinational block (R121). -/
structure DecoderPorts where
  /-- `valid` = 1 and `kind`, or `none` for `valid` = 0, where `kind` is not meaningful -/
  kind : Option (BitVec 6)
  /-- `op[11:8]` -/
  x : Fin 16
  /-- `op[7:4]` -/
  y : Fin 16
  /-- `op[3:0]` -/
  n : Fin 16
  /-- `op[7:0]` -/
  kk : Byte
  /-- `op[11:0]` -/
  nnn : BitVec 12
deriving DecidableEq, Repr

end Sys2Proof
end

