-- ==== Sys2Proof/Decode.lean ====
section
/-! DEFINITION. The opcode decoder (spec/40_decoder.md), written from its pseudocode (R122); the opcode map's mask and
match rows (R94), a second description of the same sets; and the encoder, written from the patterns of R94. -/

namespace Sys2Proof

/-- `v[hi:lo]` as a number (R9). -/
def slice (v : Word) (hi lo : Nat) : Nat := v.toNat / 2 ^ lo % 2 ^ (hi + 1 - lo)

/-- The family, `op[15:12]` (R91). -/
def opFamily (op : Word) : Nat := slice op 15 12
/-- `x = op[11:8]` (R91). -/
def opX (op : Word) : Fin 16 := Fin.ofNat 16 (slice op 11 8)
/-- `y = op[7:4]` (R91). -/
def opY (op : Word) : Fin 16 := Fin.ofNat 16 (slice op 7 4)
/-- `n = op[3:0]` (R91). -/
def opN (op : Word) : Fin 16 := Fin.ofNat 16 (slice op 3 0)
/-- `kk = lo = op[7:0]` (R91). -/
def opKk (op : Word) : Byte := BitVec.ofNat 8 (slice op 7 0)
/-- `nnn = op[11:0]` (R91). -/
def opNnn (op : Word) : BitVec 12 := BitVec.ofNat 12 (slice op 11 0)

/-- Family 0: exact match on `lo`; bits 11:8 only under `FAMILY0_STRICT` (R122). -/
def decodeFamily0 (strict : Bool) (op : Word) : Except DecodeError Instr :=
  if strict && opX op != 0 then .error (.unsupported op)
  else match slice op 7 0 with
    | 0xE0 => .ok (.cls (opX op))
    | 0xEE => .ok (.ret (opX op))
    | _ => .error (.unsupported op)

/-- Families 5 and 9: `n` must be 0 (R96, R122; 90_conflicts.md C5). -/
def decodeFamily59 (op : Word) (i : Instr) : Except DecodeError Instr :=
  match slice op 3 0 with
  | 0 => .ok i
  | _ => .error (.unsupported op)

/-- Family 8: selected by `n` (R122). -/
def decodeFamily8 (op : Word) : Except DecodeError Instr :=
  match slice op 3 0 with
  | 0x0 => .ok (.ldVxVy (opX op) (opY op))
  | 0x1 => .ok (.or (opX op) (opY op))
  | 0x2 => .ok (.and (opX op) (opY op))
  | 0x3 => .ok (.xor (opX op) (opY op))
  | 0x4 => .ok (.addVxVy (opX op) (opY op))
  | 0x5 => .ok (.sub (opX op) (opY op))
  | 0x6 => .ok (.shr (opX op) (opY op))
  | 0x7 => .ok (.subn (opX op) (opY op))
  | 0xE => .ok (.shl (opX op) (opY op))
  | _ => .error (.unsupported op)

/-- Family E: selected by `lo` (R122). -/
def decodeFamilyE (op : Word) : Except DecodeError Instr :=
  match slice op 7 0 with
  | 0x9E => .ok (.skp (opX op))
  | 0xA1 => .ok (.sknp (opX op))
  | _ => .error (.unsupported op)

/-- Family F: selected by `lo` (R122). -/
def decodeFamilyF (op : Word) : Except DecodeError Instr :=
  match slice op 7 0 with
  | 0x07 => .ok (.ldVxDt (opX op))
  | 0x0A => .ok (.ldVxK (opX op))
  | 0x15 => .ok (.ldDtVx (opX op))
  | 0x18 => .ok (.ldStVx (opX op))
  | 0x1E => .ok (.addIVx (opX op))
  | 0x29 => .ok (.ldFVx (opX op))
  | 0x33 => .ok (.ldBVx (opX op))
  | 0x55 => .ok (.ldMemVx (opX op))
  | 0x65 => .ok (.ldVxMem (opX op))
  | _ => .error (.unsupported op)

/-- The decoding function, complete (R122): total, and a function of the word and of `FAMILY0_STRICT` alone (R120). -/
def decode (strict : Bool) (op : Word) : Except DecodeError Instr :=
  match opFamily op with
  | 0x0 => decodeFamily0 strict op
  | 0x1 => .ok (.jp (opNnn op))
  | 0x2 => .ok (.call (opNnn op))
  | 0x3 => .ok (.seVxKk (opX op) (opKk op))
  | 0x4 => .ok (.sneVxKk (opX op) (opKk op))
  | 0x5 => decodeFamily59 op (.seVxVy (opX op) (opY op))
  | 0x6 => .ok (.ldVxKk (opX op) (opKk op))
  | 0x7 => .ok (.addVxKk (opX op) (opKk op))
  | 0x8 => decodeFamily8 op
  | 0x9 => decodeFamily59 op (.sneVxVy (opX op) (opY op))
  | 0xA => .ok (.ldINnn (opNnn op))
  | 0xB => .ok (.jpV0Nnn (opNnn op))
  | 0xC => .ok (.rnd (opX op) (opKk op))
  | 0xD => .ok (.drw (opX op) (opY op) (opN op))
  | 0xE => decodeFamilyE op
  | _ => decodeFamilyF op

/-- The word two bytes make: the byte at the lower address is the more significant (R60). -/
def wordOfBytes (hi lo : Byte) : Word := BitVec.ofNat 16 (hi.toNat * 256 + lo.toNat)

/-- `hi = op[15:8]`, the byte stored first (R60, R91). -/
def wordHi (op : Word) : Byte := BitVec.ofNat 8 (slice op 15 8)
/-- `lo = op[7:0]`, the byte stored second (R60, R91). -/
def wordLo (op : Word) : Byte := BitVec.ofNat 8 (slice op 7 0)

/-- Decoding from bytes: the instruction and the bytes after it. -/
def decodeBytes (strict : Bool) : List Byte → Except DecodeError (Instr × List Byte)
  | hi :: lo :: rest =>
    match decode strict (wordOfBytes hi lo) with
    | .ok i => .ok (i, rest)
    | .error e => .error e
  | [_] => .error .tooShort
  | [] => .error .tooShort

/-! ### The encoder -/

/-- A word of four nibbles, the most significant first (R92). -/
def nibbles (f a b c : Nat) : Word := BitVec.ofNat 16 (f * 4096 + a * 256 + b * 16 + c)
/-- Format A: family and address (R92). -/
def formatA (f : Nat) (nnn : BitVec 12) : Word := BitVec.ofNat 16 (f * 4096 + nnn.toNat)
/-- Format XK: family, register, immediate (R92). -/
def formatXK (f : Nat) (x : Reg) (kk : Byte) : Word := BitVec.ofNat 16 (f * 4096 + x.val * 256 + kk.toNat)
/-- Formats XY and XYN: family, two registers, a last nibble (R92). -/
def formatXYN (f : Nat) (x y : Reg) (n : Nat) : Word := nibbles f x.val y.val n
/-- Formats X and Z: family, one nibble, a fixed low byte (R92). -/
def formatX (f : Nat) (x : Fin 16) (lo : Nat) : Word := BitVec.ofNat 16 (f * 4096 + x.val * 256 + lo)

/-- The word of an instruction (R92, R94). -/
def encode : Instr → Word
  | .cls ignored => formatX 0x0 ignored 0xE0
  | .ret ignored => formatX 0x0 ignored 0xEE
  | .jp nnn => formatA 0x1 nnn
  | .call nnn => formatA 0x2 nnn
  | .seVxKk x kk => formatXK 0x3 x kk
  | .sneVxKk x kk => formatXK 0x4 x kk
  | .seVxVy x y => formatXYN 0x5 x y 0x0
  | .ldVxKk x kk => formatXK 0x6 x kk
  | .addVxKk x kk => formatXK 0x7 x kk
  | .ldVxVy x y => formatXYN 0x8 x y 0x0
  | .or x y => formatXYN 0x8 x y 0x1
  | .and x y => formatXYN 0x8 x y 0x2
  | .xor x y => formatXYN 0x8 x y 0x3
  | .addVxVy x y => formatXYN 0x8 x y 0x4
  | .sub x y => formatXYN 0x8 x y 0x5
  | .shr x y => formatXYN 0x8 x y 0x6
  | .subn x y => formatXYN 0x8 x y 0x7
  | .shl x y => formatXYN 0x8 x y 0xE
  | .sneVxVy x y => formatXYN 0x9 x y 0x0
  | .ldINnn nnn => formatA 0xA nnn
  | .jpV0Nnn nnn => formatA 0xB nnn
  | .rnd x kk => formatXK 0xC x kk
  | .drw x y n => formatXYN 0xD x y n.val
  | .skp x => formatX 0xE x 0x9E
  | .sknp x => formatX 0xE x 0xA1
  | .ldVxDt x => formatX 0xF x 0x07
  | .ldVxK x => formatX 0xF x 0x0A
  | .ldDtVx x => formatX 0xF x 0x15
  | .ldStVx x => formatX 0xF x 0x18
  | .addIVx x => formatX 0xF x 0x1E
  | .ldFVx x => formatX 0xF x 0x29
  | .ldBVx x => formatX 0xF x 0x33
  | .ldMemVx x => formatX 0xF x 0x55
  | .ldVxMem x => formatX 0xF x 0x65

/-- The two bytes of an instruction as they lie in memory (R60, R90). -/
def encodeBytes (i : Instr) : List Byte := [wordHi (encode i), wordLo (encode i)]

/-! ### The opcode map -/

/-- The kind's number (R123). Nothing in the machine's behaviour depends on it. -/
def Instr.tag : Instr → Nat
  | .cls _ => 0
  | .ret _ => 1
  | .jp _ => 2
  | .call _ => 3
  | .seVxKk _ _ => 4
  | .sneVxKk _ _ => 5
  | .seVxVy _ _ => 6
  | .ldVxKk _ _ => 7
  | .addVxKk _ _ => 8
  | .ldVxVy _ _ => 9
  | .or _ _ => 10
  | .and _ _ => 11
  | .xor _ _ => 12
  | .addVxVy _ _ => 13
  | .sub _ _ => 14
  | .shr _ _ => 15
  | .subn _ _ => 16
  | .shl _ _ => 17
  | .sneVxVy _ _ => 18
  | .ldINnn _ => 19
  | .jpV0Nnn _ => 20
  | .rnd _ _ => 21
  | .drw _ _ _ => 22
  | .skp _ => 23
  | .sknp _ => 24
  | .ldVxDt _ => 25
  | .ldVxK _ => 26
  | .ldDtVx _ => 27
  | .ldStVx _ => 28
  | .addIVx _ => 29
  | .ldFVx _ => 30
  | .ldBVx _ => 31
  | .ldMemVx _ => 32
  | .ldVxMem _ => 33

/-- The mask of the `CLS` and `RET` rows (R94, R102). -/
def family0Mask (strict : Bool) : Word := if strict then 0xFFFF else 0xF0FF

/-- The 34 mask and match pairs of R94, in tag order. -/
def opcodeRows (strict : Bool) : List OpcodeRow :=
  [⟨0, family0Mask strict, 0x00E0⟩, ⟨1, family0Mask strict, 0x00EE⟩,
   ⟨2, 0xF000, 0x1000⟩, ⟨3, 0xF000, 0x2000⟩, ⟨4, 0xF000, 0x3000⟩, ⟨5, 0xF000, 0x4000⟩,
   ⟨6, 0xF00F, 0x5000⟩, ⟨7, 0xF000, 0x6000⟩, ⟨8, 0xF000, 0x7000⟩] ++
  [⟨9, 0xF00F, 0x8000⟩, ⟨10, 0xF00F, 0x8001⟩, ⟨11, 0xF00F, 0x8002⟩, ⟨12, 0xF00F, 0x8003⟩,
   ⟨13, 0xF00F, 0x8004⟩, ⟨14, 0xF00F, 0x8005⟩, ⟨15, 0xF00F, 0x8006⟩, ⟨16, 0xF00F, 0x8007⟩,
   ⟨17, 0xF00F, 0x800E⟩] ++
  [⟨18, 0xF00F, 0x9000⟩, ⟨19, 0xF000, 0xA000⟩, ⟨20, 0xF000, 0xB000⟩, ⟨21, 0xF000, 0xC000⟩,
   ⟨22, 0xF000, 0xD000⟩, ⟨23, 0xF0FF, 0xE09E⟩, ⟨24, 0xF0FF, 0xE0A1⟩] ++
  [⟨25, 0xF0FF, 0xF007⟩, ⟨26, 0xF0FF, 0xF00A⟩, ⟨27, 0xF0FF, 0xF015⟩, ⟨28, 0xF0FF, 0xF018⟩,
   ⟨29, 0xF0FF, 0xF01E⟩, ⟨30, 0xF0FF, 0xF029⟩, ⟨31, 0xF0FF, 0xF033⟩, ⟨32, 0xF0FF, 0xF055⟩,
   ⟨33, 0xF0FF, 0xF065⟩]

/-- The row selects the word (R94). -/
def OpcodeRow.selects (r : OpcodeRow) (op : Word) : Bool := op &&& r.mask == r.value

/-- The decoder as a combinational block; the field outputs are plain wires from `op` (R121). -/
def decoderPorts (strict : Bool) (op : Word) : DecoderPorts where
  kind := match decode strict op with
    | .ok i => some (BitVec.ofNat 6 i.tag)
    | .error _ => none
  x := opX op
  y := opY op
  n := opN op
  kk := opKk op
  nnn := opNnn op

/-! ### The host's view of the decoder -/

/-- The instruction word the host numbers as the opcode table does: the low `nbits` bits of `w`, zeros above. -/
def tableWord (nbits w : Nat) : Word := BitVec.ofNat 16 (w % 2 ^ nbits)

/-- The instruction the decoder (with the default `FAMILY0_STRICT`) reads from a word numbered as
spec/opcode_table.json numbers it. -/
def decodeTableWord (nbits w : Nat) : Option Instr :=
  match decodeBytes defaultConfig.family0Strict [wordHi (tableWord nbits w), wordLo (tableWord nbits w)] with
  | .ok (i, _) => some i
  | .error _ => none

end Sys2Proof
end

