-- ==== Sys2Proof/Machine/State.lean ====
section
/-! DEFINITION. The state of the machine (spec/10_state.md R20), the conditions its fault latch records
(spec/60_exceptions.md R280), the reasons a step of the MODEL can stop, and the state after reset (R45). -/

namespace Sys2Proof.Machine

/-- The run-time fatal conditions, with the information each records (R280 to R285). They are values of the state
element `fault`, so raising one is a NEXT state; `Fault` below is something else. -/
inductive FatalCondition where
  /-- step 2 of any cycle: the word matches none of the 34 kinds (R281) -/
  | unsupportedOpcode (word pc : Word)
  /-- `CALL` with `sp = 16` (R282) -/
  | stackOverflow (pc : Word)
  /-- `RET` with `sp = 0` (R283) -/
  | stackUnderflow (pc : Word)
  /-- the fetch, `DRW`, `LD_B_VX`, `LD_MEM_VX`, `LD_VX_MEM`: `addr` is the base of the access (R284) -/
  | memoryOutOfBounds (addr pc : Word)
  /-- `SKP`, `SKNP` with `V[x] > 15` (R285) -/
  | keyIndexOutOfRange (value : Byte) (pc : Word)
deriving DecidableEq, Repr

/-- Why no machine is created (R286, R322): never a value of `fault`. -/
inductive RomLoadError where
  /-- the source cannot be opened or read -/
  | unreadable
  /-- the image is longer than 3584 bytes (decision D18) -/
  | tooLong
deriving DecidableEq, Repr

/-- What the host and the environment supply to one cycle (R14, R300, R301). -/
structure CycleInput where
  /-- the latch of the last `UpdateKeyboard` before the cycle, or `none` if the host made no such call -/
  keys : Option (Vector Bool 16)
  /-- the elapsed time, `delta` -/
  delta : Seconds
  /-- the random byte, `rnd` -/
  rnd : Byte
deriving DecidableEq, Repr

/-- Memory as address and byte pairs in canonical form (`Memory.wf` in Machine/Ops.lean). An address below 4096 that
is not listed reads as what reset puts there (R45), the parameter `FONT` below 0x050 and 0 above. -/
abbrev Memory := List Host.Cell

/-- The framebuffer as the rising list of the cells that hold 1; every other cell holds 0 (R35). -/
abbrev Framebuffer := List Nat

/-- The complete state of the machine (R20), and three fields of the model's own. -/
structure State where
  /-- the open parameters, fixed for the machine: no state of the spec's, no step changes them (R7, R38; log entry 1) -/
  cfg : Config
  /-- `V[0..15]`, the general registers; `V[15]` is `VF` (R21, R22) -/
  V : Vector Byte 16
  /-- the index register (R24) -/
  I : Word
  /-- the program counter (R25) -/
  pc : Word
  /-- the stack pointer, the number of entries in use (R28) -/
  sp : Byte
  /-- the call stack (R29) -/
  stack : Vector Word 16
  /-- the delay timer (R30) -/
  dt : Byte
  /-- the sound timer (R30) -/
  st : Byte
  /-- the time accumulated towards the next tick (R31) -/
  acc : Seconds
  /-- the memory (R32) -/
  mem : Memory
  /-- the keyboard latch (R34) -/
  keys : Vector Bool 16
  /-- the framebuffer (R35) -/
  fb : Framebuffer
  /-- the halt status, `none` while the machine runs (R36) -/
  fault : Option FatalCondition
  /-- the model's own: the inputs of the coming cycles, the next one first; free values follow (log entry 5) -/
  inputs : List CycleInput
  /-- the model's own: how many cycles were called, the index of the free values (log entry 5) -/
  cycle : Nat
deriving DecidableEq, Repr

/-- Why a step of the MODEL stops. The machine's own fatal conditions are no such stop (`FatalCondition`). -/
inductive Fault where
  /-- raised by `CALL` and `RET` when `sp` holds more than 16, which no run reaches (R28): the spec's stack has no such
  entry and no rule says what happens (log entry 7). Safe: the model stops, and `Obligations.StepCompletesUnderTheInvariant`
  says that no state with the invariant stops so. -/
  | noSuchStackEntry
deriving DecidableEq, Repr

/-- Why the model gives an instruction no meaning. -/
inductive Refusal where
  /-- raised by an arm of `exec` whose instruction is not modelled yet, under its mnemonic; no arm raises it. Safe. -/
  | notModelled (mnemonic : String)
deriving DecidableEq, Repr

/-- What an instruction's meaning, and a step, answer. -/
abbrev Result := Host.Outcome State Fault Refusal

/-- The machine with parameters `c` right after a reset with an empty program image (R45, R320). The zeros are the
spec's decision D3 (log entry 3). -/
def State.resetWith (c : Config) : State where
  cfg := c
  V := Vector.replicate 16 0
  I := 0
  pc := BitVec.ofNat 16 progBase
  sp := 0
  stack := Vector.replicate 16 0
  dt := 0
  st := 0
  acc := Seconds.zero
  mem := []
  keys := Vector.replicate 16 false
  fb := []
  fault := none
  inputs := []
  cycle := 0

/-- The machine right after reset, with the default parameters. No program is in memory: see `reset` in
Machine/Reset.lean for the load of one (log entry 8). -/
def State.reset : State := State.resetWith defaultConfig

end Sys2Proof.Machine
end

