-- ==== Sys2Proof/Machine/Ops.lean ====
section
/-! DEFINITION. The operations over memory, registers, the call stack, the framebuffer and the cycle's input, and the
one operation that raises a fatal condition (spec/00_scope.md R10 to R12, spec/20_memory.md). -/

namespace Sys2Proof.Machine

/-! ### Memory -/

/-- What an address of memory that is not listed reads as: its contents after reset (R45, R67). -/
def initialByte (font : Vector Byte 80) (a : Nat) : Byte :=
  if h : a < 80 then font[a] else 0

/-- The byte listed at `a`, if one is. -/
def Memory.lookup (a : Nat) : Memory → Option Byte
  | [] => none
  | c :: m => if c.1 = a then some c.2 else Memory.lookup a m

/-- The byte at `a`. -/
def Memory.read (font : Vector Byte 80) (m : Memory) (a : Nat) : Byte :=
  match Memory.lookup a m with
  | some v => v
  | none => initialByte font a

/-- The memory with nothing listed at `a`. -/
def Memory.without (a : Nat) (m : Memory) : Memory := m.filter fun c => c.1 != a

/-- The memory with `v` listed at `a`, in its place among the rising addresses. -/
def Memory.place (a : Nat) (v : Byte) : Memory → Memory
  | [] => [(a, v)]
  | c :: m => if a < c.1 then (a, v) :: c :: m else c :: Memory.place a v m

/-- `mem[a] <- v`, keeping the canonical form: a byte equal to its reset value is not listed. -/
def Memory.write (font : Vector Byte 80) (m : Memory) (a : Nat) (v : Byte) : Memory :=
  if v = initialByte font a then Memory.without a m else Memory.place a v (Memory.without a m)

/-- Consecutive one-byte writes from `a` upward (R61: data has no byte order). -/
def Memory.writeList (font : Vector Byte 80) (m : Memory) (a : Nat) : List Byte → Memory
  | [] => m
  | v :: vs => Memory.writeList font (Memory.write font m a v) (a + 1) vs

/-- The canonical form: addresses strictly rising and inside `0..4095`, no entry equal to what it would read as unlisted. -/
abbrev Memory.wf (font : Vector Byte 80) (m : Memory) : Prop :=
  m.Pairwise (fun c d => c.1 < d.1) ∧ ∀ c ∈ m, c.1 < memSize ∧ c.2 ≠ initialByte font c.1

/-- `CheckRange(addr, len)` succeeds: the whole range lies in `0..4095`; an empty range always does (R11, R66). -/
def checkRange (addr len : Nat) : Bool := len == 0 || decide (addr + len ≤ memSize)

/-- The byte of memory at `a`, for `a` in `0..4095`. Meanings reach it through `readBytes`, which checks. -/
def State.byteAt (s : State) (a : Nat) : Byte := Memory.read s.cfg.font s.mem a

/-- The bytes `addr .. addr+len-1`, or `none` if the range leaves memory: checked whole before any byte is read (R66). -/
def State.readBytes (s : State) (addr len : Nat) : Option (List Byte) :=
  if checkRange addr len then some ((List.range len).map fun i => s.byteAt (addr + i)) else none

/-- Stores `vs` from `addr` upward, or `none` if the range leaves memory: checked whole before any byte is written (R66). -/
def State.writeBytes (s : State) (addr : Nat) (vs : List Byte) : Option State :=
  if checkRange addr vs.length then some { s with mem := Memory.writeList s.cfg.font s.mem addr vs } else none

/-! ### Registers and the program counter -/

/-- `V[x]` (R21: no register is hard-wired). -/
def State.reg (s : State) (x : Reg) : Byte := s.V[x]

/-- `V[x] <- v`. -/
def State.setReg (s : State) (x : Reg) (v : Byte) : State := { s with V := s.V.set x v }

/-- `V[x] <- v`, then `V[15] <- flag`: the flag lands last (R197; decision D7). -/
def State.setRegFlag (s : State) (x : Reg) (v flag : Byte) : State := (s.setReg x v).setReg VF flag

/-- `V[first], V[first+1], ... <- vs`, ascending (R226). -/
def setRegsFrom (first : Nat) (V : Vector Byte 16) : List Byte → Vector Byte 16
  | [] => V
  | v :: vs => setRegsFrom (first + 1) (V.setIfInBounds first v) vs

/-- `pc <- pc + 2`, the straight-line advance (R155). -/
def State.advance (s : State) : State := { s with pc := s.pc + 2 }

/-- The skip convention: `pc` by 4 if the condition holds, else by 2 (R179). -/
def State.skipIf (s : State) (cond : Bool) : State := { s with pc := s.pc + (if cond then 4 else 2) }

/-! ### Raising a fatal condition -/

/-- `raise`: the trap entry of this machine (R12, R290). It writes `fault` and nothing else; there is no vector, no
saved register, no mode. There is no return from it either (R292): only reset clears `fault`. -/
def State.raise (s : State) (c : FatalCondition) : State := { s with fault := some c }

/-- The condition's number; 0 stands for `None` (R280; decision D14). -/
def FatalCondition.code : FatalCondition → Nat
  | .unsupportedOpcode _ _ => 2
  | .stackOverflow _ => 3
  | .stackUnderflow _ => 4
  | .memoryOutOfBounds _ _ => 5
  | .keyIndexOutOfRange _ _ => 6

/-- `RomLoadError`'s number (R280). -/
def RomLoadError.code : RomLoadError → Nat
  | .unreadable => 1
  | .tooLong => 1

/-! ### The call stack -/

/-- `stack[sp] <- a; sp <- sp + 1` (R29, R173); `none` where the stack has no entry `sp`. -/
def State.push (s : State) (a : Word) : Option State :=
  if h : s.sp.toNat < 16 then some { s with stack := s.stack.set s.sp.toNat a h, sp := s.sp + 1 } else none

/-- `sp <- sp - 1; pc <- stack[sp]` (R29, R171), the entry keeping its value; `none` where there is no such entry. -/
def State.popPc (s : State) : Option State :=
  if h : (s.sp - 1).toNat < 16 then some { s with sp := s.sp - 1, pc := s.stack[(s.sp - 1).toNat] } else none

/-! ### The framebuffer -/

/-- `fb[k]` is 1. -/
def Framebuffer.lit (fb : Framebuffer) (k : Nat) : Bool := fb.elem k

/-- The framebuffer with cell `k` lit, in its place in the rising list. -/
def Framebuffer.light (k : Nat) : Framebuffer → Framebuffer
  | [] => [k]
  | j :: fb => if k < j then k :: j :: fb else j :: Framebuffer.light k fb

/-- `fb[k] <- fb[k] ^ 1`. -/
def Framebuffer.toggle (fb : Framebuffer) (k : Nat) : Framebuffer :=
  if Framebuffer.lit fb k then fb.filter fun j => j != k else Framebuffer.light k fb

/-- The canonical form: cells strictly rising, each a cell of the display. -/
abbrev Framebuffer.wf (cells : Nat) (fb : Framebuffer) : Prop :=
  fb.Pairwise (fun j k => j < k) ∧ ∀ k ∈ fb, k < cells

/-- The pixel in column `c` and row `r`: `fb[r * W + c]` (R35, R240). -/
def State.pixel (s : State) (c r : Nat) : Bool := Framebuffer.lit s.fb (r * s.cfg.displayW + c)

/-! ### The input of the cycle -/

/-- The input nothing constrains: what arrives at cycle `n` when no schedule is given (R14, R37, R301; log entry 5). -/
def freeInput (n : Nat) : CycleInput where
  keys := Config.freeKeys n
  delta := Seconds.ofFraction (Config.freeDeltaNum n) (Config.freeDeltaDen n + 1) (Nat.succ_pos _)
  rnd := Config.freeRnd n

/-- The input of the cycle being executed. -/
def State.cycleInput (s : State) : CycleInput :=
  match s.inputs with
  | i :: _ => i
  | [] => freeInput s.cycle

/-- The input of the cycle is used up (the model's own fields only). -/
def State.endCycle (s : State) : State := { s with inputs := s.inputs.tail, cycle := s.cycle + 1 }

/-- `UpdateKeyboard(k)`: replaces the whole latch and nothing else (R301). -/
def State.updateKeyboard (s : State) (k : Vector Bool 16) : State := { s with keys := k }

/-- The host's `UpdateKeyboard` before this cycle, if it makes one; otherwise the latch persists (R34; decision D23). -/
def State.arrive (s : State) : State := s.updateKeyboard (s.cycleInput.keys.getD s.keys)

/-! ### Placing an instruction in memory -/

/-- The word `op` at `pc` and `pc + 1`, the more significant byte first (R60). -/
def State.placeAtPc (s : State) (op : Word) : State :=
  { s with mem := Memory.writeList s.cfg.font s.mem s.pc.toNat [wordHi op, wordLo op] }

end Sys2Proof.Machine
end

