-- ==== Sys2Proof/Machine/Operands.lean ====
section
/-! DEFINITION. The operand forms: a register (`State.reg`), the immediates `kk` and `nnn`, the one addressing mode for
data, `I + i` (spec/44_index_memory.md R222), the key a register selects, the cells a sprite covers. -/

namespace Sys2Proof.Machine

/-- `nnn` zero-extended to 16 bits: an absolute byte address, not scaled, not relative (R93). -/
def addrOf (nnn : BitVec 12) : Word := BitVec.ofNat 16 nnn.toNat

/-- `V[x]` zero-extended to 16 bits. -/
def wide (v : Byte) : Word := BitVec.ofNat 16 v.toNat

/-- The base of every data access, `I` as a natural number: never reduced (R66, R222). -/
def State.base (s : State) : Nat := s.I.toNat

/-- The address of glyph `a`: `a * 5`, the whole of the register, no reduction (R223). -/
def glyphAddress (a : Byte) : Word := BitVec.ofNat 16 (a.toNat * glyphBytes)

/-- The decimal digits of a byte, hundreds first (R224). -/
def bcdDigits (a : Byte) : List Byte :=
  [BitVec.ofNat 8 (a.toNat / 100), BitVec.ofNat 8 (a.toNat / 10 % 10), BitVec.ofNat 8 (a.toNat % 10)]

/-- `V[0], ..., V[x]` (R225: inclusive of `x`). -/
def State.regsUpTo (s : State) (x : Reg) : List Byte := s.V.toList.take (x.val + 1)

/-- The key numbered by a register's whole value, or `none` for an index above 15 (R260). -/
def State.keyDown (s : State) (k : Byte) : Option Bool :=
  if h : k.toNat < 16 then some s.keys[k.toNat] else none

/-- The least index at which a list holds `true`, counting from `i`. -/
def firstTrue (i : Nat) : List Bool → Option Nat
  | [] => none
  | b :: bs => if b then some i else firstTrue (i + 1) bs

/-- The lowest key that is down (R264: scan order 0 to 15). -/
def State.lowestKey (s : State) : Option Byte :=
  match firstTrue 0 s.keys.toList with
  | some k => some (BitVec.ofNat 8 k)
  | none => none

/-- The framebuffer cell of sprite column `c` in display row `py`: `py * W + (vx + c) mod W` (R243). -/
def spriteCell (w vx py c : Nat) : Nat := py * w + (vx + c) % w

/-- The cells of the 1 bits of one sprite row, bit 7 the leftmost (R243). -/
def rowCells (w vx py : Nat) (row : Byte) : List Nat :=
  ((List.range 8).filter fun c => row.getLsbD (7 - c)).map (spriteCell w vx py)

/-- The cells of the 1 bits of a sprite whose next row is row `r`; every pixel wraps on its own (R243). -/
def spriteCells (w h vx vy : Nat) (r : Nat) : List Byte → List Nat
  | [] => []
  | row :: rows => rowCells w vx ((vy + r) % h) row ++ spriteCells w h vx vy (r + 1) rows

end Sys2Proof.Machine
end

