-- ==== Sys2Proof/Machine/Flags.lean ====
section
/-! DEFINITION. The results that `VF` receives and the arithmetic beside them (spec/43_alu.md R190, R203, R204;
spec/45_display.md R243). Operands are taken to natural numbers, computed exactly and cut down at the end (R190). -/

namespace Sys2Proof.Machine

/-- A flag as the byte `VF` receives. -/
def flagByte (b : Bool) : Byte := if b then 1 else 0

/-- `(a + b) mod 256` (R190). -/
def addBytes (a b : Byte) : Byte := BitVec.ofNat 8 (a.toNat + b.toNat)

/-- The carry: 1 iff `a + b >= 256` (R198). -/
def carryFlag (a b : Byte) : Byte := flagByte (decide (256 ≤ a.toNat + b.toNat))

/-- `(minuend - subtrahend) mod 256` (R190). -/
def subBytes (minuend subtrahend : Byte) : Byte := BitVec.ofNat 8 (256 + minuend.toNat - subtrahend.toNat)

/-- 1 iff the minuend is STRICTLY greater: equal operands give 0 (R199, R203; 90_conflicts.md C4). -/
def strictlyGreaterFlag (minuend subtrahend : Byte) : Byte := flagByte (decide (subtrahend.toNat < minuend.toNat))

/-- `a div 2` (R200). -/
def shiftedRight (a : Byte) : Byte := BitVec.ofNat 8 (a.toNat / 2)

/-- `(a * 2) mod 256` (R202). -/
def shiftedLeft (a : Byte) : Byte := BitVec.ofNat 8 (a.toNat * 2)

/-- Bit 0 of the value before the shift, or under `after` of the value after it (R200, R204). -/
def shiftRightFlag (source : ShiftFlagSource) (a : Byte) : Byte :=
  match source with
  | .before => BitVec.ofNat 8 (a.toNat % 2)
  | .after => BitVec.ofNat 8 ((shiftedRight a).toNat % 2)

/-- Bit 7 of the value before the shift, or under `after` of the value after it (R202, R204). -/
def shiftLeftFlag (source : ShiftFlagSource) (a : Byte) : Byte :=
  match source with
  | .before => BitVec.ofNat 8 (a.toNat / 128)
  | .after => BitVec.ofNat 8 ((shiftedLeft a).toNat / 128)

/-- Toggles the cells in order; the flag is the collision: some cell went from 1 to 0 (R243). -/
def xorCells : List Nat → Framebuffer → Framebuffer × Bool
  | [], fb => (fb, false)
  | k :: ks, fb =>
    ((xorCells ks (Framebuffer.toggle fb k)).1, Framebuffer.lit fb k || (xorCells ks (Framebuffer.toggle fb k)).2)

end Sys2Proof.Machine
end

