-- ==== Sys2Proof/Machine/Alu.lean ====
section
/-! DEFINITION. Register load, arithmetic, logic, shift and random instructions (spec/43_alu.md). Every operand is read
before anything is written, and a flag is written last (R197). -/

namespace Sys2Proof.Machine

/-- `LD Vx, kk` (R191). -/
def execLdVxKk (x : Reg) (kk : Byte) (s : State) : Result := .next (s.setReg x kk).advance

/-- `ADD Vx, kk` (R192): wraps, no flag. -/
def execAddVxKk (x : Reg) (kk : Byte) (s : State) : Result := .next (s.setReg x (addBytes (s.reg x) kk)).advance

/-- `LD Vx, Vy` (R193). -/
def execLdVxVy (x y : Reg) (s : State) : Result := .next (s.setReg x (s.reg y)).advance

/-- `OR Vx, Vy` (R194): `VF` is not written. -/
def execOr (x y : Reg) (s : State) : Result := .next (s.setReg x (s.reg x ||| s.reg y)).advance

/-- `AND Vx, Vy` (R195): `VF` is not written. -/
def execAnd (x y : Reg) (s : State) : Result := .next (s.setReg x (s.reg x &&& s.reg y)).advance

/-- `XOR Vx, Vy` (R196): `VF` is not written. -/
def execXor (x y : Reg) (s : State) : Result := .next (s.setReg x (s.reg x ^^^ s.reg y)).advance

/-- `ADD Vx, Vy` (R198). -/
def execAddVxVy (x y : Reg) (s : State) : Result :=
  .next (s.setRegFlag x (addBytes (s.reg x) (s.reg y)) (carryFlag (s.reg x) (s.reg y))).advance

/-- `SUB Vx, Vy` (R199): `Vx - Vy`. -/
def execSub (x y : Reg) (s : State) : Result :=
  .next (s.setRegFlag x (subBytes (s.reg x) (s.reg y)) (strictlyGreaterFlag (s.reg x) (s.reg y))).advance

/-- `SUBN Vx, Vy` (R201): `Vy - Vx`, into `Vx`. -/
def execSubn (x y : Reg) (s : State) : Result :=
  .next (s.setRegFlag x (subBytes (s.reg y) (s.reg x)) (strictlyGreaterFlag (s.reg y) (s.reg x))).advance

/-- `SHR Vx` (R200, R204): `y` is ignored. -/
def execShr (x _y : Reg) (s : State) : Result :=
  .next (s.setRegFlag x (shiftedRight (s.reg x)) (shiftRightFlag s.cfg.shiftFlagSource (s.reg x))).advance

/-- `SHL Vx` (R202, R204): `y` is ignored. -/
def execShl (x _y : Reg) (s : State) : Result :=
  .next (s.setRegFlag x (shiftedLeft (s.reg x)) (shiftLeftFlag s.cfg.shiftFlagSource (s.reg x))).advance

/-- `RND Vx, kk` (R207): the draw is the cycle's input `rnd`. -/
def execRnd (x : Reg) (kk : Byte) (s : State) : Result := .next (s.setReg x (s.cycleInput.rnd &&& kk)).advance

end Sys2Proof.Machine
end

