-- ==== Sys2Proof/Machine/ControlFlow.lean ====
section
/-! DEFINITION. The control-flow instructions (spec/42_control_flow.md). `pc` holds the address of the instruction
itself while it executes (R26); a target is not checked when it is written (R170). -/

namespace Sys2Proof.Machine

/-- `RET` (R171): underflow iff `sp = 0`; otherwise pops into `pc`, nothing added. -/
def execRet (_ignored : Fin 16) (s : State) : Result :=
  if s.sp = 0 then .next (s.raise (.stackUnderflow s.pc))
  else match s.popPc with
    | some t => .next t
    | none => .fault .noSuchStackEntry

/-- `JP nnn` (R172). -/
def execJp (nnn : BitVec 12) (s : State) : Result := .next { s with pc := addrOf nnn }

/-- `CALL nnn` (R173): overflow iff `sp = 16`; otherwise pushes `pc + 2` and jumps. -/
def execCall (nnn : BitVec 12) (s : State) : Result :=
  if s.sp = 16 then .next (s.raise (.stackOverflow s.pc))
  else match s.push (s.pc + 2) with
    | some t => .next { t with pc := addrOf nnn }
    | none => .fault .noSuchStackEntry

/-- `JP V0, nnn` (R174): the sum is not reduced. -/
def execJpV0Nnn (nnn : BitVec 12) (s : State) : Result := .next { s with pc := addrOf nnn + wide (s.reg 0) }

/-- `SE Vx, kk` (R175). -/
def execSeVxKk (x : Reg) (kk : Byte) (s : State) : Result := .next (s.skipIf (s.reg x == kk))

/-- `SNE Vx, kk` (R176). -/
def execSneVxKk (x : Reg) (kk : Byte) (s : State) : Result := .next (s.skipIf (s.reg x != kk))

/-- `SE Vx, Vy` (R177). -/
def execSeVxVy (x y : Reg) (s : State) : Result := .next (s.skipIf (s.reg x == s.reg y))

/-- `SNE Vx, Vy` (R178). -/
def execSneVxVy (x y : Reg) (s : State) : Result := .next (s.skipIf (s.reg x != s.reg y))

end Sys2Proof.Machine
end

