-- ==== Sys2Proof/Machine/Display.lean ====
section
/-! DEFINITION. The display instructions (spec/45_display.md). -/

namespace Sys2Proof.Machine

/-- `CLS` (R241): every cell 0; `VF` is not written. -/
def execCls (_ignored : Fin 16) (s : State) : Result := .next { s with fb := [] }.advance

/-- The sprite `rows` drawn at column `vx`, row `vy`: exclusive or, wrapping, `VF` the collision (R243). -/
def State.drawSprite (s : State) (vx vy : Byte) (rows : List Byte) : State :=
  let drawn := xorCells (spriteCells s.cfg.displayW s.cfg.displayH vx.toNat vy.toNat 0 rows) s.fb
  { s with fb := drawn.1, V := s.V.set VF (flagByte drawn.2) }

/-- `DRW Vx, Vy, n` (R243): operands first, then the range check, then the sprite bytes, then `VF` and the pixels
(decision D12); `n = 0` draws nothing, clears `VF` and never faults. -/
def execDrw (x y : Reg) (n : Fin 16) (s : State) : Result :=
  match s.readBytes s.base n.val with
  | some rows => .next (s.drawSprite (s.reg x) (s.reg y) rows).advance
  | none => .next (s.raise (.memoryOutOfBounds s.I s.pc))

end Sys2Proof.Machine
end

