-- ==== Sys2Proof/Machine/IndexMemory.lean ====
section
/-! DEFINITION. Index-register and memory instructions (spec/44_index_memory.md). The whole range of an access is
checked before any byte moves, and `I` is the same after a transfer as before it (R222). -/

namespace Sys2Proof.Machine

/-- `LD I, nnn` (R220). -/
def execLdINnn (nnn : BitVec 12) (s : State) : Result := .next { s with I := addrOf nnn }.advance

/-- `ADD I, Vx` (R221): modulo 65536, `VF` not written. -/
def execAddIVx (x : Reg) (s : State) : Result := .next { s with I := s.I + wide (s.reg x) }.advance

/-- `LD F, Vx` (R223). -/
def execLdFVx (x : Reg) (s : State) : Result := .next { s with I := glyphAddress (s.reg x) }.advance

/-- `LD B, Vx` (R224). -/
def execLdBVx (x : Reg) (s : State) : Result :=
  match s.writeBytes s.base (bcdDigits (s.reg x)) with
  | some t => .next t.advance
  | none => .next (s.raise (.memoryOutOfBounds s.I s.pc))

/-- `LD [I], Vx` (R225). -/
def execLdMemVx (x : Reg) (s : State) : Result :=
  match s.writeBytes s.base (s.regsUpTo x) with
  | some t => .next t.advance
  | none => .next (s.raise (.memoryOutOfBounds s.I s.pc))

/-- `LD Vx, [I]` (R226). -/
def execLdVxMem (x : Reg) (s : State) : Result :=
  match s.readBytes s.base (x.val + 1) with
  | some vs => .next { s with V := setRegsFrom 0 s.V vs }.advance
  | none => .next (s.raise (.memoryOutOfBounds s.I s.pc))

end Sys2Proof.Machine
end

