-- ==== Sys2Proof/Machine/TimersKeys.lean ====
section
/-! DEFINITION. Keyboard and timer instructions (spec/46_timers_keys.md). The latch is only read (R260). -/

namespace Sys2Proof.Machine

/-- `SKP Vx` (R261): a key index above 15 is fatal (decision D11). -/
def execSkp (x : Reg) (s : State) : Result :=
  match s.keyDown (s.reg x) with
  | some down => .next (s.skipIf down)
  | none => .next (s.raise (.keyIndexOutOfRange (s.reg x) s.pc))

/-- `SKNP Vx` (R262): a key index above 15 is fatal (decision D11). -/
def execSknp (x : Reg) (s : State) : Result :=
  match s.keyDown (s.reg x) with
  | some down => .next (s.skipIf (!down))
  | none => .next (s.raise (.keyIndexOutOfRange (s.reg x) s.pc))

/-- `LD Vx, DT` (R263). -/
def execLdVxDt (x : Reg) (s : State) : Result := .next (s.setReg x s.dt).advance

/-- `LD Vx, K` (R264): the lowest key down, or a complete cycle that leaves `pc` where it is. -/
def execLdVxK (x : Reg) (s : State) : Result :=
  .next (match s.lowestKey with
    | some k => (s.setReg x k).advance
    | none => s)

/-- `LD DT, Vx` (R265). -/
def execLdDtVx (x : Reg) (s : State) : Result := .next { s with dt := s.reg x }.advance

/-- `LD ST, Vx` (R266). -/
def execLdStVx (x : Reg) (s : State) : Result := .next { s with st := s.reg x }.advance

end Sys2Proof.Machine
end

