-- ==== Sys2Proof/Machine/Timer.lean ====
section
/-! DEFINITION. The timer step of the cycle (spec/41_cycle.md R157), in exact arithmetic (decision D15). -/

namespace Sys2Proof.Machine

/-- The sum of two times. -/
def addTime (a b : Seconds) : Seconds :=
  Seconds.ofFraction (a.num * b.den + b.num * a.den) (a.den * b.den) (Nat.mul_pos a.den_pos b.den_pos)

/-- The difference of two times, the first the longer. -/
def subTime (a b : Seconds) : Seconds :=
  Seconds.ofFraction (a.num * b.den - b.num * a.den) (a.den * b.den) (Nat.mul_pos a.den_pos b.den_pos)

/-- `a >= b`. -/
def reaches (a b : Seconds) : Bool := decide (b.num * a.den ≤ a.num * b.den)

/-- `TICK`: 1/60 second (R6). -/
def tick : Seconds := { num := 1, den := 60 }

/-- One decrement of a timer, floor-clamped at 0 (R30, R157). -/
def countDown (t : Byte) : Byte := if t = 0 then 0 else t - 1

/-- The two timers and the accumulator once the accumulator holds `total`: at most one tick a cycle, the remainder
carried (R157). -/
def State.withAccumulated (s : State) (total : Seconds) : State :=
  { s with
    dt := if reaches total tick then countDown s.dt else s.dt
    st := if reaches total tick then countDown s.st else s.st
    acc := if reaches total tick then subTime total tick else total }

/-- Step 4 of the cycle with elapsed time `delta` (R157). -/
def State.timerStep (s : State) (delta : Seconds) : State := s.withAccumulated (addTime s.acc delta)

end Sys2Proof.Machine
end

