-- ==== Sys2Proof/Machine/Cycle.lean ====
section
/-! DEFINITION. One `Cycle`: fetch, decode, execute, timer step (spec/41_cycle.md R150). Its inputs `delta` and `rnd`,
and the `UpdateKeyboard` the host may make before it, are `State.cycleInput` (log entry 5). -/

namespace Sys2Proof.Machine

/-- Step 1: the word at `pc`, big-endian, for `pc` in `0..4094`; no alignment test (R60, R62, R151). -/
def State.fetch (s : State) : Option Word :=
  if s.pc.toNat ≤ 4094 then some (wordOfBytes (s.byteAt s.pc.toNat) (s.byteAt (s.pc.toNat + 1))) else none

/-- After a completed step 3: the timer step, which a cycle that raised a condition does not do (R157, R158). -/
def State.afterExecute (s : State) : State :=
  match s.fault with
  | none => (s.timerStep s.cycleInput.delta).endCycle
  | some _ => s.endCycle

/-- Passes on what execution answers, with the rest of the cycle after a next state. -/
def finishCycle : Result → Result
  | .next s => .next s.afterExecute
  | .fault r => .fault r
  | .refused r => .refused r

/-- The cycle once the host's `UpdateKeyboard` has arrived (R150): a halted machine does nothing (R158, R291); the
tests come in the order fetch range, decode, the instruction's own (R289). -/
def State.runCycle (s : State) : Result :=
  match s.fault with
  | some _ => .next s.endCycle
  | none =>
    match s.fetch with
    | none => .next (s.raise (.memoryOutOfBounds s.pc s.pc)).endCycle
    | some op =>
      match decode s.cfg.family0Strict op with
      | .error _ => .next (s.raise (.unsupportedOpcode op s.pc)).endCycle
      | .ok i => finishCycle (exec i s)

end Sys2Proof.Machine
end

