-- ==== Sys2Proof/Machine/Step.lean ====
section
/-! DEFINITION. The step: one cycle, preceded by the host's `UpdateKeyboard` where its input holds one
(spec/41_cycle.md R150, spec/60_exceptions.md R300). -/

namespace Sys2Proof.Machine

/-- One step of the machine. -/
def step (s : State) : Host.Outcome State Fault Refusal := s.arrive.runCycle

/-- The state with an instruction word stored where the next step fetches it. It stands for the program load that
happens outside the machine (R322, log entry 8). -/
def State.withFetchWord (s : State) (nbits w : Nat) : State := s.placeAtPc (tableWord nbits w)

end Sys2Proof.Machine
end

