-- ==== Sys2Proof/Machine/Disassemble.lean ====
section
/-! DEFINITION. `disassemble`, the decoder's diagnostic companion (spec/40_decoder.md R129, R130; decision D19). No
state depends on it. The second argument of the spec's operation is all it needs: an `Instr` holds its operands. -/

namespace Sys2Proof.Machine

/-- One upper-case hexadecimal digit. -/
def hexDigit (n : Nat) : Char :=
  match n with
  | 0 => '0' | 1 => '1' | 2 => '2' | 3 => '3' | 4 => '4' | 5 => '5' | 6 => '6' | 7 => '7'
  | 8 => '8' | 9 => '9' | 10 => 'A' | 11 => 'B' | 12 => 'C' | 13 => 'D' | 14 => 'E' | _ => 'F'

/-- `V` and a digit (R104). -/
def regText (x : Reg) : String := "V" ++ String.singleton (hexDigit x.val)

/-- `0xKK`. -/
def byteText (kk : Byte) : String :=
  "0x" ++ String.singleton (hexDigit (kk.toNat / 16)) ++ String.singleton (hexDigit (kk.toNat % 16))

/-- `0xNNN`. -/
def addrText (nnn : BitVec 12) : String :=
  "0x" ++ String.singleton (hexDigit (nnn.toNat / 256)) ++ String.singleton (hexDigit (nnn.toNat / 16 % 16)) ++
    String.singleton (hexDigit (nnn.toNat % 16))

/-- `0xN`. -/
def nibbleText (n : Fin 16) : String := "0x" ++ String.singleton (hexDigit n.val)

/-- The text of an instruction, per kind (R130). -/
def disassemble : Instr → String
  | .cls _ => "cls"
  | .ret _ => "ret"
  | .jp nnn => "jp " ++ addrText nnn
  | .call nnn => "call " ++ addrText nnn
  | .seVxKk x kk => "se " ++ regText x ++ ", " ++ byteText kk
  | .sneVxKk x kk => "sne " ++ regText x ++ ", " ++ byteText kk
  | .seVxVy x y => "se " ++ regText x ++ ", " ++ regText y
  | .ldVxKk x kk => "ld " ++ regText x ++ ", " ++ byteText kk
  | .addVxKk x kk => "add " ++ regText x ++ ", " ++ byteText kk
  | .ldVxVy x y => "ld " ++ regText x ++ ", " ++ regText y
  | .or x y => "or " ++ regText x ++ ", " ++ regText y
  | .and x y => "and " ++ regText x ++ ", " ++ regText y
  | .xor x y => "xor " ++ regText x ++ ", " ++ regText y
  | .addVxVy x y => "add " ++ regText x ++ ", " ++ regText y
  | .sub x y => "sub " ++ regText x ++ ", " ++ regText y
  | .shr x _ => "shr " ++ regText x
  | .subn x y => "subn " ++ regText x ++ ", " ++ regText y
  | .shl x _ => "shl " ++ regText x
  | .sneVxVy x y => "sne " ++ regText x ++ ", " ++ regText y
  | .ldINnn nnn => "ld I, " ++ addrText nnn
  | .jpV0Nnn nnn => "jp V0, " ++ addrText nnn
  | .rnd x kk => "rnd " ++ regText x ++ ", " ++ byteText kk
  | .drw x y n => "drw " ++ regText x ++ ", " ++ regText y ++ ", " ++ nibbleText n
  | .skp x => "skp " ++ regText x
  | .sknp x => "sknp " ++ regText x
  | .ldVxDt x => "ld " ++ regText x ++ ", DT"
  | .ldVxK x => "ld " ++ regText x ++ ", K"
  | .ldDtVx x => "ld DT, " ++ regText x
  | .ldStVx x => "ld ST, " ++ regText x
  | .addIVx x => "add I, " ++ regText x
  | .ldFVx x => "ld F, " ++ regText x
  | .ldBVx x => "ld B, " ++ regText x
  | .ldMemVx x => "ld [I], " ++ regText x
  | .ldVxMem x => "ld " ++ regText x ++ ", [I]"

end Sys2Proof.Machine
end

