-- ==== Sys2Proof/Machine/Reset.lean ====
section
/-! DEFINITION. The host's operations besides the cycle: `Reset(rom)` with the program load (spec/70_reset_and_hazards.md
R320, R322), and the read-only accessors (spec/10_state.md R40, R338). `UpdateKeyboard` is `State.updateKeyboard`. -/

namespace Sys2Proof.Machine

/-- `Reset(rom)` with parameters `c`: `none` is a source that cannot be read. The bytes are copied verbatim from 0x200
upward; an image longer than 3584 bytes is refused (decision D18); nothing else about it is checked (R126, R322). -/
def reset (c : Config) : Option (List Byte) → Except RomLoadError State
  | none => .error .unreadable
  | some rom =>
    if rom.length ≤ progMax then
      .ok { State.resetWith c with mem := Memory.writeList c.font [] progBase rom }
    else .error .tooLong

/-- What the accessors show the host: snapshots, between cycles and after a fatal condition too. `mem`, `acc` and
`keys` are not among them (R40, R338). -/
structure HostView where
  /-- the framebuffer: `W * H` bits, row-major (R240) -/
  fb : List Bool
  /-- the general registers -/
  V : Vector Byte 16
  /-- the index register -/
  I : Word
  /-- the program counter -/
  pc : Word
  /-- the stack pointer -/
  sp : Byte
  /-- the delay timer -/
  dt : Byte
  /-- the sound timer: the host plays a tone or not by it (R302) -/
  st : Byte
  /-- the 16 stack entries, live and stale alike (R29) -/
  stack : Vector Word 16
  /-- the halt status (decision D17) -/
  fault : Option FatalCondition
deriving DecidableEq, Repr

/-- The accessors' answers. -/
def State.hostView (s : State) : HostView where
  fb := (List.range s.cfg.cells).map (Framebuffer.lit s.fb)
  V := s.V
  I := s.I
  pc := s.pc
  sp := s.sp
  dt := s.dt
  st := s.st
  stack := s.stack
  fault := s.fault

end Sys2Proof.Machine
end

