-- ==== Sys2Proof/Safety.lean ====
section
/-! DEFINITION. What counts as a safe run: the invariant every step keeps, running and halted machines, and the parked
state the spec offers as the end of a run (spec/70_reset_and_hazards.md R340). -/

namespace Sys2Proof.Machine

/-- The invariant: the parameters meet R7's constraints, memory and framebuffer are in canonical form (so memory lists
only addresses that exist and the framebuffer only cells that exist), `sp` counts at most 16 entries (R28), every stack
entry is at most 4096 (R29) and `pc` at most 4350 (R27). -/
structure State.Inv (s : State) : Prop where
  /-- R7: the display is at least 8 by 15 -/
  cfg : s.cfg.wf = true
  /-- the canonical form of memory -/
  mem : Memory.wf s.cfg.font s.mem
  /-- the canonical form of the framebuffer -/
  fb : Framebuffer.wf s.cfg.cells s.fb
  /-- R28 -/
  sp : s.sp.toNat ≤ 16
  /-- R29 -/
  stack : ∀ k : Fin 16, s.stack[k].toNat ≤ 4096
  /-- R27 -/
  pc : s.pc.toNat ≤ 4350

/-- The machine runs: no fatal condition has stopped it (R36, R291). A claim about a program takes this as a premise. -/
abbrev State.running (s : State) : Prop := s.fault = none

/-- Parked: running, and the word at `pc` is a jump to `pc` itself (R340; decision D22). -/
def State.parked (s : State) : Bool :=
  decide s.running && (match s.fetch with
    | some op => slice op 15 12 == 1 && slice op 11 0 == s.pc.toNat
    | none => false)

end Sys2Proof.Machine
end

