-- ==== Sys2Proof/Certificates/Slice0/Obligations.lean ====
section
/-! DEFINITION. The statements for the provers: what the numbered rules of spec/ say of the machine, and what the model
promises of its encodings and its invariant. First the vocabulary they share. -/

namespace Sys2Proof.Machine

/-! ### Frames: what an instruction may change -/

/-- Only general registers and `pc` differ. -/
def OnlyRegsPc (s t : State) : Prop := t = { s with V := t.V, pc := t.pc } ∧ ∀ a, t.byteAt a = s.byteAt a
/-- Only `pc` differs. -/
def OnlyPc (s t : State) : Prop := t = { s with pc := t.pc } ∧ ∀ a, t.byteAt a = s.byteAt a
/-- Only `I` and `pc` differ. -/
def OnlyIndexPc (s t : State) : Prop := t = { s with I := t.I, pc := t.pc } ∧ ∀ a, t.byteAt a = s.byteAt a
/-- Only the call stack, `sp` and `pc` differ. -/
def OnlyStackPc (s t : State) : Prop :=
  t = { s with stack := t.stack, sp := t.sp, pc := t.pc } ∧ ∀ a, t.byteAt a = s.byteAt a
/-- Only memory and `pc` differ. -/
def OnlyMemPc (s t : State) : Prop := t = { s with mem := t.mem, pc := t.pc }
/-- Only the framebuffer, the registers and `pc` differ. -/
def OnlyDisplayRegsPc (s t : State) : Prop :=
  t = { s with fb := t.fb, V := t.V, pc := t.pc } ∧ ∀ a, t.byteAt a = s.byteAt a
/-- Only the two timers and `pc` differ. -/
def OnlyTimersPc (s t : State) : Prop :=
  t = { s with dt := t.dt, st := t.st, pc := t.pc } ∧ ∀ a, t.byteAt a = s.byteAt a

/-! ### The word at `pc` -/

/-- `mem[pc]:mem[pc+1]`, the first byte the more significant (R60, R151). -/
def State.wordAtPc (s : State) : Word :=
  BitVec.ofNat 16 ((s.byteAt s.pc.toNat).toNat * 256 + (s.byteAt (s.pc.toNat + 1)).toNat)

/-! ### Tables of the spec -/

/-- R155: what each kind does to `pc` when it completes. -/
def PcMoves (i : Instr) (s t : State) : Prop :=
  match i with
  | .jp nnn => t.pc.toNat = nnn.toNat
  | .call nnn => t.pc.toNat = nnn.toNat
  | .jpV0Nnn nnn => t.pc.toNat = nnn.toNat + (s.reg 0).toNat
  | .ret _ => ∃ k : Fin 16, s.sp.toNat = k.val + 1 ∧ t.pc = s.stack[k]
  | .seVxKk x kk => t.pc = if s.reg x = kk then s.pc + 4 else s.pc + 2
  | .sneVxKk x kk => t.pc = if s.reg x = kk then s.pc + 2 else s.pc + 4
  | .seVxVy x y => t.pc = if s.reg x = s.reg y then s.pc + 4 else s.pc + 2
  | .sneVxVy x y => t.pc = if s.reg x = s.reg y then s.pc + 2 else s.pc + 4
  | .skp x => ∃ k : Fin 16, (s.reg x).toNat = k.val ∧ t.pc = if s.keys[k] then s.pc + 4 else s.pc + 2
  | .sknp x => ∃ k : Fin 16, (s.reg x).toNat = k.val ∧ t.pc = if s.keys[k] then s.pc + 2 else s.pc + 4
  | .ldVxK _ => ((∃ k : Fin 16, s.keys[k] = true) → t.pc = s.pc + 2) ∧ ((∀ k : Fin 16, s.keys[k] = false) → t.pc = s.pc)
  | _ => t.pc = s.pc + 2

/-- The six skips (R179). -/
def IsSkip (i : Instr) : Prop :=
  match i with
  | .seVxKk _ _ | .sneVxKk _ _ | .seVxVy _ _ | .sneVxVy _ _ | .skp _ | .sknp _ => True
  | _ => False

/-- R23, the column "writes": the registers an instruction may write. -/
def WritesReg (i : Instr) (r : Reg) : Prop :=
  match i with
  | .ldVxKk x _ | .addVxKk x _ | .ldVxVy x _ | .or x _ | .and x _ | .xor x _ | .rnd x _ | .ldVxDt x | .ldVxK x => r = x
  | .addVxVy x _ | .sub x _ | .subn x _ | .shr x _ | .shl x _ => r = x ∨ r = VF
  | .drw _ _ _ => r = VF
  | .ldVxMem x => r ≤ x
  | _ => False

/-- R23, the column "reads": the registers an instruction reads. -/
def ReadsReg (i : Instr) (r : Reg) : Prop :=
  match i with
  | .seVxKk x _ | .sneVxKk x _ | .addVxKk x _ | .shr x _ | .shl x _ => r = x
  | .seVxVy x y | .sneVxVy x y | .or x y | .and x y | .xor x y | .addVxVy x y | .sub x y | .subn x y => r = x ∨ r = y
  | .ldVxVy _ y => r = y
  | .jpV0Nnn _ => r = 0
  | .drw x y _ => r = x ∨ r = y
  | .skp x | .sknp x | .ldDtVx x | .ldStVx x | .addIVx x | .ldFVx x | .ldBVx x => r = x
  | .ldMemVx x => r ≤ x
  | _ => False

/-- R280: when an instruction that executes raises a condition, and what the condition records. -/
def ExecutionRaises (i : Instr) (s : State) : FatalCondition → Prop
  | .unsupportedOpcode _ _ => False
  | .stackOverflow pc => pc = s.pc ∧ s.sp.toNat = 16 ∧ ∃ nnn, i = .call nnn
  | .stackUnderflow pc => pc = s.pc ∧ s.sp.toNat = 0 ∧ ∃ ignored, i = .ret ignored
  | .memoryOutOfBounds addr pc => pc = s.pc ∧ addr = s.I ∧
      ((∃ x y n, i = .drw x y n ∧ 1 ≤ n.val ∧ 4095 < s.I.toNat + n.val - 1) ∨
       (∃ x, i = .ldBVx x ∧ 4095 < s.I.toNat + 2) ∨
       (∃ x : Reg, (i = .ldMemVx x ∨ i = .ldVxMem x) ∧ 4095 < s.I.toNat + x.val))
  | .keyIndexOutOfRange value pc => pc = s.pc ∧ ∃ x, (i = .skp x ∨ i = .sknp x) ∧ value = s.reg x ∧ 15 < value.toNat

/-- R280, R289: when a cycle of a running machine raises a condition. -/
def CycleRaises (s : State) (c : FatalCondition) : Prop :=
  (4094 < s.pc.toNat ∧ c = .memoryOutOfBounds s.pc s.pc) ∨
  (s.pc.toNat ≤ 4094 ∧ (∃ e, decode s.cfg.family0Strict s.wordAtPc = .error e) ∧ c = .unsupportedOpcode s.wordAtPc s.pc) ∨
  (s.pc.toNat ≤ 4094 ∧ ∃ i, decode s.cfg.family0Strict s.wordAtPc = .ok i ∧ ExecutionRaises i s c)

/-- R243: a 1 bit of the sprite of `n` rows at `I`, drawn at (`V[x]`, `V[y]`), lands on column `c` and row `r`. -/
def SpriteOn (s : State) (x y : Reg) (n : Nat) (c r : Nat) : Prop :=
  ∃ i < n, ∃ j < 8, (s.byteAt (s.I.toNat + i)).getLsbD (7 - j) = true ∧
    ((s.reg x).toNat + j) % s.cfg.displayW = c ∧ ((s.reg y).toNat + i) % s.cfg.displayH = r

/-- The draw's range lies in memory: no row, or the last row at 4095 or below (R243). -/
def DrawInRange (s : State) (n : Nat) : Prop := n = 0 ∨ s.I.toNat + n ≤ 4096

/-- An input that ticks and touches no key. -/
def tickInput (rnd : Byte) : CycleInput := { keys := none, delta := tick, rnd := rnd }

end Sys2Proof.Machine

open Sys2Proof Sys2Proof.Machine

/-! ## Encoding -/

/-- Every well-formed instruction, with every operand at every value, is decoded from its own word. Rests on the
patterns of 30_encoding.md section 2 (log entry 10). -/
def Obligations.DecodeOfEncodeIsTheInstruction : Prop :=
  ∀ (strict : Bool) (i : Instr), i.wellFormed strict = true → decode strict (encode i) = .ok i

/-- No bit of a word is dropped: a decoded word is the encoding of the instruction, which is well formed. -/
def Obligations.EncodeOfDecodeIsTheWord : Prop :=
  ∀ (strict : Bool) (op : Word) (i : Instr), decode strict op = .ok i → encode i = op ∧ i.wellFormed strict = true

/-- The opcode map's mask and match rows and the decoding algorithm say the same (30_encoding.md section 2,
40_decoder.md section 1): no two rows match one word, a decoded word is matched by the row of its kind's tag, and a word
that a row matches is decoded. -/
def Obligations.DecoderAgreesWithTheOpcodeMap : Prop :=
  ∀ (strict : Bool) (op : Word),
    (∀ r ∈ opcodeRows strict, ∀ q ∈ opcodeRows strict, r.selects op = true → q.selects op = true → r = q) ∧
    (∀ i, decode strict op = .ok i → ∃ r ∈ opcodeRows strict, r.selects op = true ∧ r.tag = i.tag) ∧
    ((∃ r ∈ opcodeRows strict, r.selects op = true) → ∃ i, decode strict op = .ok i)

/-- The unsupported words are exactly those of the table in 30_encoding.md section 3, and the error carries the word. -/
def Obligations.UnsupportedWordsAreExactlyTheTable : Prop :=
  ∀ (strict : Bool) (op : Word),
    decode strict op = .error (.unsupported op) ↔
      (slice op 15 12 = 0x0 ∧ (slice op 7 0 ∉ [0xE0, 0xEE] ∨ (strict = true ∧ slice op 11 8 ≠ 0))) ∨
      (slice op 15 12 = 0x5 ∧ slice op 3 0 ≠ 0) ∨
      (slice op 15 12 = 0x8 ∧ slice op 3 0 ∈ [0x8, 0x9, 0xA, 0xB, 0xC, 0xD, 0xF]) ∨
      (slice op 15 12 = 0x9 ∧ slice op 3 0 ≠ 0) ∨
      (slice op 15 12 = 0xE ∧ slice op 7 0 ∉ [0x9E, 0xA1]) ∨
      (slice op 15 12 = 0xF ∧ slice op 7 0 ∉ [0x07, 0x0A, 0x15, 0x18, 0x1E, 0x29, 0x33, 0x55, 0x65])

/-- Words written out from 40_decoder.md section 3 and 95_test_vectors.md section 2, one or more of each of the six
formats of 30_encoding.md section 1, and the text of one of them. A sanity statement (log entries 10 and 22). -/
def Obligations.WrittenOutWordsDecode : Prop :=
  decode false 0x00E0 = .ok (.cls 0) ∧ decode false 0x0AEE = .ok (.ret 0xA) ∧ decode true 0x03E0 = .error (.unsupported 0x03E0) ∧
  decode false 0x1200 = .ok (.jp 0x200) ∧ decode false 0x332A = .ok (.seVxKk 3 0x2A) ∧
  decode false 0x8AB6 = .ok (.shr 0xA 0xB) ∧ decode false 0xA230 = .ok (.ldINnn 0x230) ∧
  decode false 0xC7F0 = .ok (.rnd 7 0xF0) ∧ decode false 0xD125 = .ok (.drw 1 2 5) ∧ decode false 0xE29E = .ok (.skp 2) ∧
  decode false 0xF033 = .ok (.ldBVx 0) ∧ decode false 0x0000 = .error (.unsupported 0x0000) ∧
  disassemble (.seVxKk 3 0x2A) = "se V3, 0x2A"

/-! ## The cycle -/

/-- A step of a running machine whose word at `pc` decodes to `i` is `exec i` at the state in which the host's
`UpdateKeyboard` has arrived, followed, when the instruction completed, by the timer step with the cycle's `delta`; the
cycle's input is then used up (the fields `inputs` and `cycle` are the model's own, log entry 5). -/
def Obligations.StepRunsTheDecodedInstruction : Prop :=
  ∀ (s : State) (i : Instr), s.running → s.pc.toNat ≤ 4094 → i.wellFormed s.cfg.family0Strict = true →
    decode s.cfg.family0Strict s.wordAtPc = .ok i →
    step s = match exec i { s with keys := s.cycleInput.keys.getD s.keys } with
      | .next u =>
        if u.fault = none then
          .next { u.timerStep s.cycleInput.delta with inputs := s.inputs.tail, cycle := s.cycle + 1 }
        else .next { u with inputs := s.inputs.tail, cycle := s.cycle + 1 }
      | .fault r => .fault r
      | .refused r => .refused r

/-- A cycle of a running machine either completes fetch, decode, execute and the timer step, or raises a condition and
changes nothing but `fault` (and what the host and the model's own input fields change before and after it). That a
condition is recorded in `fault` is decision D13 (log entry 18). -/
def Obligations.CycleCompletesOrChangesOnlyFault : Prop :=
  ∀ s t : State, s.running → step s = .next t →
    (∃ i u, s.pc.toNat ≤ 4094 ∧ decode s.cfg.family0Strict s.wordAtPc = .ok i ∧ exec i s.arrive = .next u ∧
      u.fault = none ∧ t = (u.timerStep s.cycleInput.delta).endCycle) ∨
    (∃ c, t = { s with fault := some c, keys := t.keys, inputs := t.inputs, cycle := t.cycle } ∧
      t.keys = s.cycleInput.keys.getD s.keys)

/-- When a cycle raises a condition, which, and what it records. The information recorded and
`KeyIndexOutOfRange` are the spec's decisions D11 and D14 (log entries 16 and 18). -/
def Obligations.ConditionsAreRaisedExactlyWhenTheTableSays : Prop :=
  ∀ (s t : State) (c : FatalCondition), s.running → step s = .next t → (t.fault = some c ↔ CycleRaises s c)

/-- A fetch with `pc` above 4094 is fatal and records `pc` twice; a word that decodes to nothing is fatal and records the
word and `pc`; the rest of the state is as it was (decisions D13, D14; log entry 18). -/
def Obligations.FetchAndDecodeFaults : Prop :=
  ∀ s : State, s.running →
    (4094 < s.pc.toNat → step s = .next { s with
      fault := some (.memoryOutOfBounds s.pc s.pc), keys := s.cycleInput.keys.getD s.keys,
      inputs := s.inputs.tail, cycle := s.cycle + 1 }) ∧
    (∀ e, s.pc.toNat ≤ 4094 → decode s.cfg.family0Strict s.wordAtPc = .error e → step s = .next { s with
      fault := some (.unsupportedOpcode s.wordAtPc s.pc), keys := s.cycleInput.keys.getD s.keys,
      inputs := s.inputs.tail, cycle := s.cycle + 1 })

/-- A halted machine stays as it is for any number of cycles; only the host's latch and the model's own input fields move
(decision D13; log entry 18). -/
def Obligations.HaltedMachineNeverChanges : Prop :=
  ∀ (s : State) (c : FatalCondition) (n : Nat), s.fault = some c →
    ∃ t, core.run n s = .next t ∧ t = { s with keys := t.keys, inputs := t.inputs, cycle := t.cycle }

/-- The timer step of a completed cycle, in exact seconds: at most one tick, the remainder kept, both timers floored at 0;
whether it ticks depends on `acc` and `delta` alone, not on the instruction (decision D15; log entry 11). -/
def Obligations.TimerStepIsExact : Prop :=
  ∀ s t : State, s.running → step s = .next t → t.fault = none →
    ∃ i u, decode s.cfg.family0Strict s.wordAtPc = .ok i ∧ exec i s.arrive = .next u ∧
      (1 / 60 ≤ s.acc.toRat + s.cycleInput.delta.toRat →
        t.acc.toRat = s.acc.toRat + s.cycleInput.delta.toRat - 1 / 60 ∧
        t.dt.toNat = u.dt.toNat - 1 ∧ t.st.toNat = u.st.toNat - 1) ∧
      (s.acc.toRat + s.cycleInput.delta.toRat < 1 / 60 →
        t.acc.toRat = s.acc.toRat + s.cycleInput.delta.toRat ∧ t.dt = u.dt ∧ t.st = u.st)

/-- A parked machine stays parked, and only `acc`, `dt`, `st`, the latch and the model's own input fields move
(decision D22; log entry 20). -/
def Obligations.ParkedMachineStaysParked : Prop :=
  ∀ (s : State) (n : Nat), s.parked = true →
    ∃ t, core.run n s = .next t ∧ t.parked = true ∧
      t = { s with acc := t.acc, dt := t.dt, st := t.st, keys := t.keys, inputs := t.inputs, cycle := t.cycle }

/-- With `acc = 0` and `delta = 1/60` in every cycle, each of `n` cycles of a parked machine decrements both timers once,
down to 0 and no further (41_cycle.md R160; decision D15, log entry 11). -/
def Obligations.ParkedMachineCountsTimersDown : Prop :=
  ∀ (s : State) (n : Nat) (rnd : Byte), s.parked = true → s.acc = Seconds.zero →
    s.inputs = List.replicate n (tickInput rnd) →
    ∃ t, core.run n s = .next t ∧ t.acc = Seconds.zero ∧ t.pc = s.pc ∧
      t.dt.toNat = s.dt.toNat - n ∧ t.st.toNat = s.st.toNat - n

/-! ## The invariant -/

/-- Every step keeps the invariant: memory and framebuffer stay canonical, `sp` at most 16, stack entries at most 4096,
`pc` at most 4350, the parameters legal. -/
def Obligations.StepKeepsTheInvariant : Prop :=
  ∀ s t : State, s.Inv → step s = .next t → t.Inv

/-- The invariant holds right after reset. -/
def Obligations.ResetHasTheInvariant : Prop := State.reset.Inv

/-- Under the invariant every step answers a next state: no state is stuck (93_implementation_defined.md section 2). -/
def Obligations.StepCompletesUnderTheInvariant : Prop :=
  ∀ s : State, s.Inv → ∃ t, step s = .next t

/-- No step changes the parameters, and the keyboard latch is the host's: it takes the host's `UpdateKeyboard` where one
arrives with the cycle, and otherwise persists (decision D23; log entries 1 and 19). -/
def Obligations.StepKeepsParametersAndLatch : Prop :=
  ∀ s t : State, step s = .next t →
    t.cfg = s.cfg ∧ (∀ k, s.cycleInput.keys = some k → t.keys = k) ∧ (s.cycleInput.keys = none → t.keys = s.keys)

/-! ## Reset -/

/-- `Reset(rom)` puts the font at 0x000, the image at 0x200 and 0x200 into `pc`; everything else is zero, which is the
spec's decision D3 (log entry 3); the loaded machine has the invariant. -/
def Obligations.ResetLoadsFontAndProgram : Prop :=
  ∀ (c : Config) (rom : List Byte), c.wf = true → rom.length ≤ 3584 →
    ∃ s, reset c (some rom) = .ok s ∧ s.cfg = c ∧ s.pc.toNat = 0x200 ∧ s.running ∧
      (∀ a, (h : a < 80) → s.byteAt a = c.font[a]) ∧
      (∀ i, (h : i < rom.length) → s.byteAt (0x200 + i) = rom[i]) ∧
      (∀ a, 80 ≤ a → (a < 0x200 ∨ 0x200 + rom.length ≤ a) → s.byteAt a = 0) ∧
      (∀ r, s.reg r = 0) ∧ s.I = 0 ∧ s.sp = 0 ∧ (∀ k : Fin 16, s.stack[k] = 0) ∧ s.dt = 0 ∧ s.st = 0 ∧
      s.acc = Seconds.zero ∧ (∀ k : Fin 16, s.keys[k] = false) ∧ (∀ k, Framebuffer.lit s.fb k = false) ∧ s.Inv

/-- A source that cannot be read creates no machine, nor does an image longer than 3584 bytes (decision D18; log entry 8). -/
def Obligations.ResetRefusesUnreadableOrLongImages : Prop :=
  ∀ c : Config, (∃ e, reset c none = .error e) ∧
    ∀ rom : List Byte, 3584 < rom.length → ∃ e, reset c (some rom) = .error e

/-! ## Rules of the whole machine -/

/-- The table of R155: what each kind does to `pc` in a cycle that does not fault. The sum of `JP V0` is not reduced
(decision D20, log entry 17; its meaning is from general knowledge, log entry 10), and the popped entry is that of the
spec's stack (decision D2, log entry 21). A skip does not look at the skipped word, its outcome is the same whatever
memory holds: that clause is the spec's decision D21 (log entry 24). -/
def Obligations.PcMovesAsTheTableSays : Prop :=
  (∀ (i : Instr) (s t : State), s.running → exec i s = .next t → t.fault = none → PcMoves i s t) ∧
  (∀ (i : Instr) (s t : State) (m : Memory), IsSkip i → exec i s = .next t →
    exec i { s with mem := m } = .next { t with mem := m })

/-- The matrix of R23, writes: a register the matrix does not give an instruction keeps its value, `VF` included
(decision D9; log entry 14). -/
def Obligations.RegistersWrittenAsTheMatrixSays : Prop :=
  ∀ (i : Instr) (s t : State) (r : Reg), exec i s = .next t → ¬ WritesReg i r → t.reg r = s.reg r

/-- The matrix of R23, reads: the value of a register the matrix does not let an instruction read shows in nothing but
that register afterwards. For `SHR` and `SHL` this says that `y` is ignored (decision D8; log entry 13). -/
def Obligations.RegistersReadAsTheMatrixSays : Prop :=
  ∀ (i : Instr) (s t : State) (r : Reg) (v : Byte), exec i s = .next t → ¬ ReadsReg i r →
    ∃ u, exec i (s.setReg r v) = .next u ∧ u = { t with V := u.V } ∧ ∀ q, q ≠ r → u.reg q = t.reg q

/-- The six flag-writing kinds leave 0 or 1 in `VF` when they complete, whatever it held and wherever the result goes
(10_state.md section 2; that the flag lands last is decision D7, log entry 12). -/
def Obligations.FlagWritingKindsLeaveZeroOrOne : Prop :=
  ∀ (i : Instr) (s t : State) (x y : Reg) (n : Fin 16), s.running → exec i s = .next t → t.fault = none →
    i ∈ [.addVxVy x y, .sub x y, .subn x y, .shr x y, .shl x y, .drw x y n] → t.reg VF = 0 ∨ t.reg VF = 1

/-- Memory is written by `LD B` and `LD [I]` alone (20_memory.md section 3). -/
def Obligations.MemoryIsWrittenByTheTwoStoresAlone : Prop :=
  ∀ (i : Instr) (s t : State), exec i s = .next t → (∀ x, i ≠ .ldBVx x) → (∀ x, i ≠ .ldMemVx x) →
    ∀ a, t.byteAt a = s.byteAt a

/-- The framebuffer is changed by `CLS` and `DRW` alone (45_display.md section 1). -/
def Obligations.FramebufferIsChangedByClsAndDrwAlone : Prop :=
  ∀ (i : Instr) (s t : State), exec i s = .next t → (∀ g, i ≠ .cls g) → (∀ x y n, i ≠ .drw x y n) → t.fb = s.fb

/-- `sp` and the call stack are changed by `CALL` and `RET` alone, `I` by its three instructions alone (decision D10 for
the block transfers, log entry 15), the timers by `LD DT` and `LD ST` alone while an instruction executes. -/
def Obligations.SpecialRegistersAreChangedByTheirKindsAlone : Prop :=
  ∀ (i : Instr) (s t : State), exec i s = .next t →
    ((∀ n, i ≠ .call n) → (∀ g, i ≠ .ret g) → t.sp = s.sp ∧ t.stack = s.stack) ∧
    ((∀ n, i ≠ .ldINnn n) → (∀ x, i ≠ .addIVx x) → (∀ x, i ≠ .ldFVx x) → t.I = s.I) ∧
    ((∀ x, i ≠ .ldDtVx x) → t.dt = s.dt) ∧ ((∀ x, i ≠ .ldStVx x) → t.st = s.st) ∧ t.acc = s.acc

/-- "`st` is read by the host only ...; it has no other effect on VM semantics": its value shows in nothing but itself
(10_state.md section 6). -/
def Obligations.SoundTimerShowsInNothingElse : Prop :=
  ∀ (s t : State) (v : Byte), step s = .next t → ∃ w, step { s with st := v } = .next { t with st := w }

/-- The framebuffer cannot be read back except by the draw: in every other step its contents show in nothing but itself
(45_display.md section 1). -/
def Obligations.FramebufferIsReadByTheDrawAlone : Prop :=
  ∀ (s t : State) (g : Framebuffer), step s = .next t → (∀ x y n, decode s.cfg.family0Strict s.wordAtPc ≠ .ok (.drw x y n)) →
    ∃ h, step { s with fb := g } = .next { t with fb := h }

/-- A store is seen by the next fetch of its address, with nothing in between (20_memory.md section 6). -/
def Obligations.StoredCodeIsFetched : Prop :=
  ∀ (s : State) (x : Reg) (p : Word) (i : Fin 16), s.I.toNat + x.val ≤ 4095 → i.val + 1 ≤ x.val →
    p.toNat = s.I.toNat + i.val →
    ∃ t, exec (.ldMemVx x) s = .next t ∧
      ({ t with pc := p } : State).fetch =
        some (BitVec.ofNat 16 ((s.reg i).toNat * 256 + (s.reg (i + 1)).toNat))

/-! ## Control flow -/

/-- `RET` pops into `pc`, the entry keeping its value (decision D24, log entry 21); on an empty stack it is fatal and
nothing else changes (decisions D13 and D14, log entry 18). Its word is `00EE`, bits 11:8 ignored unless `FAMILY0_STRICT`
(the pattern is supplied by the spec from general knowledge, log entry 10). -/
def Obligations.RetPopsTheReturnAddress : Prop :=
  (∀ (s : State) (g : Fin 16), s.sp = 0 → exec (.ret g) s = .next { s with fault := some (.stackUnderflow s.pc) }) ∧
  (∀ (s : State) (g k : Fin 16), s.sp.toNat = k.val + 1 →
    ∃ t, exec (.ret g) s = .next t ∧ t.sp.toNat = k.val ∧ t.pc = s.stack[k] ∧ t.stack = s.stack ∧ OnlyStackPc s t) ∧
  (∀ (strict : Bool) (g : Fin 16), (strict = true → g = 0) →
    decode strict (BitVec.ofNat 16 (g.val * 256 + 0xEE)) = .ok (.ret g))

/-- `CALL` pushes `pc + 2` and jumps (the stack's encoding is decision D2, log entry 21); on the 17th nested call it is
fatal and nothing else changes (decisions D13 and D14, log entry 18). Its word is `2nnn` (from general knowledge, log
entry 10). -/
def Obligations.CallPushesTheReturnAddress : Prop :=
  (∀ (s : State) (nnn : BitVec 12), s.sp.toNat = 16 →
    exec (.call nnn) s = .next { s with fault := some (.stackOverflow s.pc) }) ∧
  (∀ (s : State) (nnn : BitVec 12) (k : Fin 16), s.sp.toNat = k.val →
    ∃ t, exec (.call nnn) s = .next t ∧ t.stack[k] = s.pc + 2 ∧ (∀ j : Fin 16, j ≠ k → t.stack[j] = s.stack[j]) ∧
      t.sp.toNat = k.val + 1 ∧ t.pc.toNat = nnn.toNat ∧ OnlyStackPc s t) ∧
  (∀ (strict : Bool) (nnn : BitVec 12), decode strict (BitVec.ofNat 16 (0x2000 + nnn.toNat)) = .ok (.call nnn))

/-- A `RET` with the stack its `CALL` left returns to the instruction after the call and restores `sp`
(42_control_flow.md section 4). -/
def Obligations.ReturnFollowsTheMatchingCall : Prop :=
  ∀ (s u : State) (nnn : BitVec 12) (g : Fin 16), s.sp.toNat < 16 →
    ∃ t, exec (.call nnn) s = .next t ∧
      (u.sp = t.sp → u.stack = t.stack → ∃ w, exec (.ret g) u = .next w ∧ w.pc = s.pc + 2 ∧ w.sp = s.sp)

/-- `JP nnn` and `JP V0, nnn`: the target is the address, or the address plus `V[0]`, not reduced and not checked (the
semantics are supplied by the spec from general knowledge, log entry 10). -/
def Obligations.JumpsSetPc : Prop :=
  ∀ (s : State) (nnn : BitVec 12),
    (∃ t, exec (.jp nnn) s = .next t ∧ t.pc.toNat = nnn.toNat ∧ OnlyPc s t) ∧
    (∃ t, exec (.jpV0Nnn nnn) s = .next t ∧ t.pc.toNat = nnn.toNat + (s.reg 0).toNat ∧ OnlyPc s t)

/-- The four compare-and-skip kinds advance `pc` by 4 if the condition holds, else by 2, and change nothing else. Their
words are `3xkk`, `4xkk`, `5xy0`, `9xy0` (supplied by the spec from general knowledge, log entry 10). -/
def Obligations.CompareAndSkip : Prop :=
  (∀ (s : State) (x : Reg) (kk : Byte),
    (∃ t, exec (.seVxKk x kk) s = .next t ∧ (s.reg x = kk → t.pc = s.pc + 4) ∧ (s.reg x ≠ kk → t.pc = s.pc + 2) ∧
      OnlyPc s t) ∧
    (∃ t, exec (.sneVxKk x kk) s = .next t ∧ (s.reg x ≠ kk → t.pc = s.pc + 4) ∧ (s.reg x = kk → t.pc = s.pc + 2) ∧
      OnlyPc s t)) ∧
  (∀ (s : State) (x y : Reg),
    (∃ t, exec (.seVxVy x y) s = .next t ∧ (s.reg x = s.reg y → t.pc = s.pc + 4) ∧
      (s.reg x ≠ s.reg y → t.pc = s.pc + 2) ∧ OnlyPc s t) ∧
    (∃ t, exec (.sneVxVy x y) s = .next t ∧ (s.reg x ≠ s.reg y → t.pc = s.pc + 4) ∧
      (s.reg x = s.reg y → t.pc = s.pc + 2) ∧ OnlyPc s t)) ∧
  (∀ (strict : Bool) (x y : Reg) (kk : Byte),
    decode strict (BitVec.ofNat 16 (0x3000 + x.val * 256 + kk.toNat)) = .ok (.seVxKk x kk) ∧
    decode strict (BitVec.ofNat 16 (0x4000 + x.val * 256 + kk.toNat)) = .ok (.sneVxKk x kk) ∧
    decode strict (BitVec.ofNat 16 (0x5000 + x.val * 256 + y.val * 16)) = .ok (.seVxVy x y) ∧
    decode strict (BitVec.ofNat 16 (0x9000 + x.val * 256 + y.val * 16)) = .ok (.sneVxVy x y))

/-! ## Loads, arithmetic, logic, shifts, random -/

/-- `LD Vx, kk`, `ADD Vx, kk`, `LD Vx, Vy`: the destination's new value, no other register, no flag (semantics from
general knowledge, log entry 10; that `ADD Vx, kk` leaves `VF` alone is decision D9, log entry 14). -/
def Obligations.LoadsAndAddImmediate : Prop :=
  ∀ (s : State) (x y : Reg) (kk : Byte),
    (∃ t, exec (.ldVxKk x kk) s = .next t ∧ t.reg x = kk ∧ (∀ r, r ≠ x → t.reg r = s.reg r) ∧ t.pc = s.pc + 2 ∧
      OnlyRegsPc s t) ∧
    (∃ t, exec (.addVxKk x kk) s = .next t ∧ (t.reg x).toNat = ((s.reg x).toNat + kk.toNat) % 256 ∧
      (∀ r, r ≠ x → t.reg r = s.reg r) ∧ t.pc = s.pc + 2 ∧ OnlyRegsPc s t) ∧
    (∃ t, exec (.ldVxVy x y) s = .next t ∧ t.reg x = s.reg y ∧ (∀ r, r ≠ x → t.reg r = s.reg r) ∧ t.pc = s.pc + 2 ∧
      OnlyRegsPc s t)

/-- `OR`, `AND`, `XOR`, bit by bit; `VF` is not written (semantics from general knowledge, log entry 10; decision D9, log
entry 14). -/
def Obligations.LogicBitByBit : Prop :=
  ∀ (s : State) (x y : Reg),
    (∃ t, exec (.or x y) s = .next t ∧
      (∀ b < 8, (t.reg x).getLsbD b = ((s.reg x).getLsbD b || (s.reg y).getLsbD b)) ∧
      (∀ r, r ≠ x → t.reg r = s.reg r) ∧ t.pc = s.pc + 2 ∧ OnlyRegsPc s t) ∧
    (∃ t, exec (.and x y) s = .next t ∧
      (∀ b < 8, (t.reg x).getLsbD b = ((s.reg x).getLsbD b && (s.reg y).getLsbD b)) ∧
      (∀ r, r ≠ x → t.reg r = s.reg r) ∧ t.pc = s.pc + 2 ∧ OnlyRegsPc s t) ∧
    (∃ t, exec (.xor x y) s = .next t ∧
      (∀ b < 8, (t.reg x).getLsbD b = xor ((s.reg x).getLsbD b) ((s.reg y).getLsbD b)) ∧
      (∀ r, r ≠ x → t.reg r = s.reg r) ∧ t.pc = s.pc + 2 ∧ OnlyRegsPc s t)

/-- `ADD Vx, Vy`: the sum modulo 256 and the carry of the sum before truncation, always written; with `x = 15` the flag
wins (decision D7, log entry 12). -/
def Obligations.AddWithCarryOut : Prop :=
  ∀ (s : State) (x y : Reg),
    ∃ t, exec (.addVxVy x y) s = .next t ∧
      (x ≠ VF → (t.reg x).toNat = ((s.reg x).toNat + (s.reg y).toNat) % 256) ∧
      t.reg VF = (if (s.reg x).toNat + (s.reg y).toNat ≥ 256 then 1 else 0) ∧
      (∀ r, r ≠ x → r ≠ VF → t.reg r = s.reg r) ∧ t.pc = s.pc + 2 ∧ OnlyRegsPc s t

/-- `SUB` and `SUBN`: the difference modulo 256, and the flag, 1 iff the minuend is strictly greater, so 0 at equal
operands (90_conflicts.md C4); with `x = 15` the flag wins (decision D7, log entry 12). That the result of `SUBN` goes to
`Vx` is supplied by the spec from general knowledge (G6, log entry 10). -/
def Obligations.SubtractWithStrictFlag : Prop :=
  ∀ (s : State) (x y : Reg),
    (∃ t, exec (.sub x y) s = .next t ∧
      (x ≠ VF → (t.reg x).toNat = (256 + (s.reg x).toNat - (s.reg y).toNat) % 256) ∧
      t.reg VF = (if (s.reg x).toNat > (s.reg y).toNat then 1 else 0) ∧
      (∀ r, r ≠ x → r ≠ VF → t.reg r = s.reg r) ∧ t.pc = s.pc + 2 ∧ OnlyRegsPc s t) ∧
    (∃ t, exec (.subn x y) s = .next t ∧
      (x ≠ VF → (t.reg x).toNat = (256 + (s.reg y).toNat - (s.reg x).toNat) % 256) ∧
      t.reg VF = (if (s.reg y).toNat > (s.reg x).toNat then 1 else 0) ∧
      (∀ r, r ≠ x → r ≠ VF → t.reg r = s.reg r) ∧ t.pc = s.pc + 2 ∧ OnlyRegsPc s t)

/-- `SHR` and `SHL`: the shifted value of `V[x]` itself, and the flag, the bit shifted out or, under
`SHIFT_FLAG_SOURCE = after`, the same bit position of the result (90_conflicts.md C3; decision D8, log entry 13); with
`x = 15` the flag wins (decision D7, log entry 12). -/
def Obligations.ShiftByOne : Prop :=
  ∀ (s : State) (x y : Reg),
    (∃ t, exec (.shr x y) s = .next t ∧
      (x ≠ VF → (t.reg x).toNat = (s.reg x).toNat / 2) ∧
      (s.cfg.shiftFlagSource = .before → (t.reg VF).toNat = (s.reg x).toNat % 2) ∧
      (s.cfg.shiftFlagSource = .after → (t.reg VF).toNat = (s.reg x).toNat / 2 % 2) ∧
      (∀ r, r ≠ x → r ≠ VF → t.reg r = s.reg r) ∧ t.pc = s.pc + 2 ∧ OnlyRegsPc s t) ∧
    (∃ t, exec (.shl x y) s = .next t ∧
      (x ≠ VF → (t.reg x).toNat = (s.reg x).toNat * 2 % 256) ∧
      (s.cfg.shiftFlagSource = .before → (t.reg VF).toNat = (s.reg x).toNat / 128) ∧
      (s.cfg.shiftFlagSource = .after → (t.reg VF).toNat = (s.reg x).toNat * 2 % 256 / 128) ∧
      (∀ r, r ≠ x → r ≠ VF → t.reg r = s.reg r) ∧ t.pc = s.pc + 2 ∧ OnlyRegsPc s t)

/-- `RND Vx, kk`: the cycle's draw, any byte the environment supplies, masked with `kk` (decision D16, log entry 5). -/
def Obligations.RandomIsTheMaskedDraw : Prop :=
  ∀ (s : State) (x : Reg) (kk : Byte),
    ∃ t, exec (.rnd x kk) s = .next t ∧ t.reg x = s.cycleInput.rnd &&& kk ∧
      (∀ input rest, s.inputs = input :: rest → t.reg x = input.rnd &&& kk) ∧ t.reg x &&& ~~~kk = 0 ∧
      (∀ r, r ≠ x → t.reg r = s.reg r) ∧ t.pc = s.pc + 2 ∧ OnlyRegsPc s t

/-! ## Index register and memory -/

/-- R220: `LD I, nnn`. Its word is `Annn`. -/
def Obligations.LoadIndex : Prop :=
  (∀ (s : State) (nnn : BitVec 12),
    ∃ t, exec (.ldINnn nnn) s = .next t ∧ t.I.toNat = nnn.toNat ∧ t.pc = s.pc + 2 ∧ OnlyIndexPc s t) ∧
  (∀ (strict : Bool) (nnn : BitVec 12), decode strict (BitVec.ofNat 16 (0xA000 + nnn.toNat)) = .ok (.ldINnn nnn))

/-- `ADD I, Vx`: modulo 65536, never a fault, `VF` not written (semantics from general knowledge, log entry 10; decisions
D9 and D20, log entries 14 and 17). -/
def Obligations.AddToIndex : Prop :=
  ∀ (s : State) (x : Reg),
    ∃ t, exec (.addIVx x) s = .next t ∧ t.I.toNat = (s.I.toNat + (s.reg x).toNat) % 65536 ∧ t.pc = s.pc + 2 ∧
      OnlyIndexPc s t

/-- `LD F, Vx` is `Vx * 5`, the whole register, no reduction (decision D20, log entry 17), no memory access. Its word is
`Fx29` (supplied by the spec from general knowledge, log entry 10). -/
def Obligations.GlyphAddress : Prop :=
  (∀ (s : State) (x : Reg),
    ∃ t, exec (.ldFVx x) s = .next t ∧ t.I.toNat = (s.reg x).toNat * 5 ∧ t.pc = s.pc + 2 ∧ OnlyIndexPc s t) ∧
  (∀ (strict : Bool) (x : Reg), decode strict (BitVec.ofNat 16 (0xF029 + x.val * 256)) = .ok (.ldFVx x))

/-- `LD B, Vx`: the three decimal digits at `I`, `I+1`, `I+2` where the range lies in memory; every other byte, and `I`
(decision D10, log entry 15), is unchanged. -/
def Obligations.StoreDecimalDigits : Prop :=
  ∀ (s : State) (x : Reg), s.I.toNat + 2 ≤ 4095 →
    ∃ t, exec (.ldBVx x) s = .next t ∧
      (t.byteAt s.I.toNat).toNat * 100 + (t.byteAt (s.I.toNat + 1)).toNat * 10 + (t.byteAt (s.I.toNat + 2)).toNat =
        (s.reg x).toNat ∧
      (t.byteAt s.I.toNat).toNat ≤ 2 ∧ (t.byteAt (s.I.toNat + 1)).toNat ≤ 9 ∧ (t.byteAt (s.I.toNat + 2)).toNat ≤ 9 ∧
      (∀ a, a < s.I.toNat ∨ s.I.toNat + 2 < a → t.byteAt a = s.byteAt a) ∧ t.pc = s.pc + 2 ∧ OnlyMemPc s t

/-- `LD [I], Vx`: `V[0]` to `V[x]` inclusive at `I` to `I + x` where the range lies in memory; every other byte, and `I`
(decision D10, log entry 15), is unchanged. -/
def Obligations.StoreRegisters : Prop :=
  ∀ (s : State) (x : Reg), s.I.toNat + x.val ≤ 4095 →
    ∃ t, exec (.ldMemVx x) s = .next t ∧ (∀ r : Reg, r ≤ x → t.byteAt (s.I.toNat + r.val) = s.reg r) ∧
      (∀ a, a < s.I.toNat ∨ s.I.toNat + x.val < a → t.byteAt a = s.byteAt a) ∧ t.pc = s.pc + 2 ∧ OnlyMemPc s t

/-- `LD Vx, [I]`: `V[0]` to `V[x]` inclusive from `I` to `I + x` where the range lies in memory; registers above `x`, and
`I` (decision D10, log entry 15), are unchanged. -/
def Obligations.LoadRegisters : Prop :=
  ∀ (s : State) (x : Reg), s.I.toNat + x.val ≤ 4095 →
    ∃ t, exec (.ldVxMem x) s = .next t ∧ (∀ r : Reg, r ≤ x → t.reg r = s.byteAt (s.I.toNat + r.val)) ∧
      (∀ r : Reg, x < r → t.reg r = s.reg r) ∧ t.pc = s.pc + 2 ∧ OnlyRegsPc s t

/-- A block load gives back what a block store put at the same `I`, whatever the registers hold by then. -/
def Obligations.BlockLoadRestoresBlockStore : Prop :=
  ∀ (s u : State) (x : Reg), s.I.toNat + x.val ≤ 4095 →
    ∃ t, exec (.ldMemVx x) s = .next t ∧
      (u.I = s.I → u.cfg = t.cfg → u.mem = t.mem →
        ∃ w, exec (.ldVxMem x) u = .next w ∧ ∀ r : Reg, r ≤ x → w.reg r = s.reg r)

/-- A range that leaves memory is fatal in the four kinds that access memory through `I`: the base and `pc` are recorded
and nothing is moved, drawn or cleared (decisions D12, D13, D14; log entries 17 and 18). -/
def Obligations.RangeOutsideMemoryFaults : Prop :=
  ∀ (s : State) (x y : Reg) (n : Fin 16),
    (4095 < s.I.toNat + 2 → exec (.ldBVx x) s = .next { s with fault := some (.memoryOutOfBounds s.I s.pc) }) ∧
    (4095 < s.I.toNat + x.val →
      exec (.ldMemVx x) s = .next { s with fault := some (.memoryOutOfBounds s.I s.pc) } ∧
      exec (.ldVxMem x) s = .next { s with fault := some (.memoryOutOfBounds s.I s.pc) }) ∧
    (1 ≤ n.val → 4095 < s.I.toNat + n.val - 1 →
      exec (.drw x y n) s = .next { s with fault := some (.memoryOutOfBounds s.I s.pc) })

/-! ## Display -/

/-- R241: `CLS` sets every framebuffer cell to 0, and changes nothing else but `pc`. Its word is `00E0`, bits 11:8 ignored
unless `FAMILY0_STRICT`, under which another value of them is no instruction. -/
def Obligations.ClearDisplay : Prop :=
  (∀ (s : State) (g : Fin 16),
    ∃ t, exec (.cls g) s = .next t ∧ (∀ k, Framebuffer.lit t.fb k = false) ∧ (∀ r, t.reg r = s.reg r) ∧
      t.pc = s.pc + 2 ∧ OnlyDisplayRegsPc s t) ∧
  (∀ (strict : Bool) (g : Fin 16), (strict = true → g = 0) →
    decode strict (BitVec.ofNat 16 (g.val * 256 + 0xE0)) = .ok (.cls g)) ∧
  (∀ g : Fin 16, g ≠ 0 → ∃ e, decode true (BitVec.ofNat 16 (g.val * 256 + 0xE0)) = .error e)

/-- `DRW Vx, Vy, n`, pixel by pixel: a pixel under a 1 bit of the sprite is inverted, every other keeps its value, each
sprite pixel wrapping on its own; `VF` is 1 iff some pixel went from 1 to 0, else 0; a draw of no rows is never fatal.
The coordinates are the values before `VF` is cleared (decision D12, log entry 17). -/
def Obligations.DrawInvertsTheSpritePixels : Prop :=
  ∀ (s : State) (x y : Reg) (n : Fin 16), s.cfg.wf = true → DrawInRange s n.val →
    ∃ t, exec (.drw x y n) s = .next t ∧
      (∀ c r, c < s.cfg.displayW → r < s.cfg.displayH → SpriteOn s x y n.val c r → t.pixel c r = !s.pixel c r) ∧
      (∀ c r, c < s.cfg.displayW → r < s.cfg.displayH → ¬ SpriteOn s x y n.val c r → t.pixel c r = s.pixel c r) ∧
      ((∃ c r, SpriteOn s x y n.val c r ∧ s.pixel c r = true) → t.reg VF = 1) ∧
      ((∀ c r, SpriteOn s x y n.val c r → s.pixel c r = false) → t.reg VF = 0) ∧
      (∀ r, r ≠ VF → t.reg r = s.reg r) ∧ t.pc = s.pc + 2 ∧ OnlyDisplayRegsPc s t

/-- The double exclusive or: with neither coordinate in `VF`, drawing the same sprite twice in succession restores the
framebuffer exactly; the second draw collides iff a sprite pixel was lit by then; and a sprite with a 1 bit collides in
at least one of the two draws (45_display.md section 3). -/
def Obligations.DrawingTwiceRestoresTheDisplay : Prop :=
  ∀ (s : State) (x y : Reg) (n : Fin 16), s.Inv → x ≠ VF → y ≠ VF → DrawInRange s n.val →
    ∃ t u, exec (.drw x y n) s = .next t ∧ exec (.drw x y n) t = .next u ∧ u.fb = s.fb ∧
      (u.reg VF = 1 ↔ ∃ c r, SpriteOn s x y n.val c r ∧ s.pixel c r = false) ∧
      ((∃ c r, SpriteOn s x y n.val c r) → t.reg VF = 1 ∨ u.reg VF = 1)

/-! ## Keyboard and timers -/

/-- `SKP` and `SKNP`: for a key number 0 to 15 in the register, `pc` by 4 if the key is down (up), else by 2. -/
def Obligations.KeySkips : Prop :=
  ∀ (s : State) (x : Reg) (k : Fin 16), (s.reg x).toNat = k.val →
    (∃ t, exec (.skp x) s = .next t ∧ (s.keys[k] = true → t.pc = s.pc + 4) ∧ (s.keys[k] = false → t.pc = s.pc + 2) ∧
      OnlyPc s t) ∧
    (∃ t, exec (.sknp x) s = .next t ∧ (s.keys[k] = false → t.pc = s.pc + 4) ∧ (s.keys[k] = true → t.pc = s.pc + 2) ∧
      OnlyPc s t)

/-- A key number above 15 is fatal and nothing else changes: the spec's decision D11 (log entry 16). -/
def Obligations.KeyIndexAboveFifteenFaults : Prop :=
  ∀ (s : State) (x : Reg), 15 < (s.reg x).toNat →
    exec (.skp x) s = .next { s with fault := some (.keyIndexOutOfRange (s.reg x) s.pc) } ∧
    exec (.sknp x) s = .next { s with fault := some (.keyIndexOutOfRange (s.reg x) s.pc) }

/-- `LD Vx, K` stores the lowest key that is down and advances; with no key down it changes nothing, `pc` included, and the
cycle still does the timer step. Its word is `Fx0A` (supplied by the spec from general knowledge, log entry 10). -/
def Obligations.WaitForKey : Prop :=
  (∀ (s : State) (x : Reg) (k : Fin 16), s.keys[k] = true → (∀ j : Fin 16, j < k → s.keys[j] = false) →
    ∃ t, exec (.ldVxK x) s = .next t ∧ (t.reg x).toNat = k.val ∧ (∀ r, r ≠ x → t.reg r = s.reg r) ∧ t.pc = s.pc + 2 ∧
      OnlyRegsPc s t) ∧
  (∀ (s : State) (x : Reg), (∀ j : Fin 16, s.keys[j] = false) → exec (.ldVxK x) s = .next s) ∧
  (∀ (s : State) (x : Reg), s.running → s.pc.toNat ≤ 4094 → decode s.cfg.family0Strict s.wordAtPc = .ok (.ldVxK x) →
    (∀ j : Fin 16, s.arrive.keys[j] = false) →
    step s = .next (s.arrive.timerStep s.cycleInput.delta).endCycle) ∧
  (∀ (strict : Bool) (x : Reg), decode strict (BitVec.ofNat 16 (0xF00A + x.val * 256)) = .ok (.ldVxK x))

/-- `LD Vx, DT`, `LD DT, Vx`, `LD ST, Vx` (semantics from general knowledge, log entry 10). -/
def Obligations.TimerAccess : Prop :=
  ∀ (s : State) (x : Reg),
    (∃ t, exec (.ldVxDt x) s = .next t ∧ t.reg x = s.dt ∧ (∀ r, r ≠ x → t.reg r = s.reg r) ∧ t.pc = s.pc + 2 ∧
      OnlyRegsPc s t) ∧
    (∃ t, exec (.ldDtVx x) s = .next t ∧ t.dt = s.reg x ∧ t.st = s.st ∧ t.pc = s.pc + 2 ∧ OnlyTimersPc s t) ∧
    (∃ t, exec (.ldStVx x) s = .next t ∧ t.st = s.reg x ∧ t.dt = s.dt ∧ t.pc = s.pc + 2 ∧ OnlyTimersPc s t)
end

