-- ==== Sys2Proof/Laws/Decode.lean ====
section
/-! SUPPORT. The fields of the words the encoder writes, and the opcode map's masks in terms of fields (spec/30_encoding.md
R91, R92, R94). -/

namespace Sys2Proof

theorem slice_lt (op : Word) (hi lo : Nat) : slice op hi lo < 2 ^ (hi + 1 - lo) := Nat.mod_lt _ (Nat.two_pow_pos _)

/-- A word is its four nibbles. -/
theorem word_of_slices (op : Word) :
    op.toNat = slice op 15 12 * 4096 + slice op 11 8 * 256 + slice op 7 4 * 16 + slice op 3 0 := by
  have := op.isLt
  simp only [slice]
  norm_num
  omega

/-- `kk = y:n` (R91). -/
theorem slice_kk (op : Word) : slice op 7 0 = slice op 7 4 * 16 + slice op 3 0 := by
  simp only [slice]; norm_num; omega

/-- `nnn = x:kk` (R91). -/
theorem slice_nnn (op : Word) : slice op 11 0 = slice op 11 8 * 256 + slice op 7 0 := by
  simp only [slice]; norm_num; omega

@[simp] theorem opX_val (op : Word) : (opX op).val = slice op 11 8 := by
  have := slice_lt op 11 8; simp only [opX, Fin.val_ofNat]; norm_num at *; omega
@[simp] theorem opY_val (op : Word) : (opY op).val = slice op 7 4 := by
  have := slice_lt op 7 4; simp only [opY, Fin.val_ofNat]; norm_num at *; omega
@[simp] theorem opN_val (op : Word) : (opN op).val = slice op 3 0 := by
  have := slice_lt op 3 0; simp only [opN, Fin.val_ofNat]; norm_num at *; omega
@[simp] theorem opKk_toNat (op : Word) : (opKk op).toNat = slice op 7 0 := by
  have := slice_lt op 7 0; simp only [opKk, BitVec.toNat_ofNat]; norm_num at *; omega
@[simp] theorem opNnn_toNat (op : Word) : (opNnn op).toNat = slice op 11 0 := by
  have := slice_lt op 11 0; simp only [opNnn, BitVec.toNat_ofNat]; norm_num at *; omega

theorem toNat_nibbles (f a b c : Nat) (hf : f < 16) (ha : a < 16) (hb : b < 16) (hc : c < 16) :
    (nibbles f a b c).toNat = f * 4096 + a * 256 + b * 16 + c := by
  simp only [nibbles, BitVec.toNat_ofNat]; omega
theorem toNat_formatA (f : Nat) (nnn : BitVec 12) (hf : f < 16) : (formatA f nnn).toNat = f * 4096 + nnn.toNat := by
  have := nnn.isLt; simp only [formatA, BitVec.toNat_ofNat]; omega
theorem toNat_formatXK (f : Nat) (x : Reg) (kk : Byte) (hf : f < 16) :
    (formatXK f x kk).toNat = f * 4096 + x.val * 256 + kk.toNat := by
  have := x.isLt; have := kk.isLt; simp only [formatXK, BitVec.toNat_ofNat]; omega
theorem toNat_formatX (f : Nat) (x : Fin 16) (lo : Nat) (hf : f < 16) (hl : lo < 256) :
    (formatX f x lo).toNat = f * 4096 + x.val * 256 + lo := by
  have := x.isLt; simp only [formatX, BitVec.toNat_ofNat]; omega
theorem toNat_formatXYN (f : Nat) (x y : Reg) (n : Nat) (hf : f < 16) (hn : n < 16) :
    (formatXYN f x y n).toNat = f * 4096 + x.val * 256 + y.val * 16 + n :=
  toNat_nibbles f x.val y.val n hf x.isLt y.isLt hn

/-! ### Fields of a format A word -/
section
variable (f : Nat) (nnn : BitVec 12) (hf : f < 16)
include hf
theorem formatA_family : slice (formatA f nnn) 15 12 = f := by
  have := nnn.isLt; simp only [slice, toNat_formatA f nnn hf]; norm_num; omega
theorem formatA_nnn : slice (formatA f nnn) 11 0 = nnn.toNat := by
  have := nnn.isLt; simp only [slice, toNat_formatA f nnn hf]; norm_num; omega
end

/-! ### Fields of a format XK word -/
section
variable (f : Nat) (x : Reg) (kk : Byte) (hf : f < 16)
include hf
theorem formatXK_family : slice (formatXK f x kk) 15 12 = f := by
  have := x.isLt; have := kk.isLt; simp only [slice, toNat_formatXK f x kk hf]; norm_num; omega
theorem formatXK_x : slice (formatXK f x kk) 11 8 = x.val := by
  have := x.isLt; have := kk.isLt; simp only [slice, toNat_formatXK f x kk hf]; norm_num; omega
theorem formatXK_kk : slice (formatXK f x kk) 7 0 = kk.toNat := by
  have := x.isLt; have := kk.isLt; simp only [slice, toNat_formatXK f x kk hf]; norm_num; omega
end

/-! ### Fields of a format X word -/
section
variable (f : Nat) (x : Fin 16) (lo : Nat) (hf : f < 16) (hl : lo < 256)
include hf hl
theorem formatX_family : slice (formatX f x lo) 15 12 = f := by
  have := x.isLt; simp only [slice, toNat_formatX f x lo hf hl]; norm_num; omega
theorem formatX_x : slice (formatX f x lo) 11 8 = x.val := by
  have := x.isLt; simp only [slice, toNat_formatX f x lo hf hl]; norm_num; omega
theorem formatX_lo : slice (formatX f x lo) 7 0 = lo := by
  have := x.isLt; simp only [slice, toNat_formatX f x lo hf hl]; norm_num; omega
end

/-! ### Fields of a format XY or XYN word -/
section
variable (f : Nat) (x y : Reg) (n : Nat) (hf : f < 16) (hn : n < 16)
include hf hn
theorem formatXYN_family : slice (formatXYN f x y n) 15 12 = f := by
  have := x.isLt; have := y.isLt; simp only [slice, toNat_formatXYN f x y n hf hn]; norm_num; omega
theorem formatXYN_x : slice (formatXYN f x y n) 11 8 = x.val := by
  have := x.isLt; have := y.isLt; simp only [slice, toNat_formatXYN f x y n hf hn]; norm_num; omega
theorem formatXYN_y : slice (formatXYN f x y n) 7 4 = y.val := by
  have := x.isLt; have := y.isLt; simp only [slice, toNat_formatXYN f x y n hf hn]; norm_num; omega
theorem formatXYN_n : slice (formatXYN f x y n) 3 0 = n := by
  have := x.isLt; have := y.isLt; simp only [slice, toNat_formatXYN f x y n hf hn]; norm_num; omega
end

/-! ### Masks -/

theorem nat_and_high (n k w : Nat) : n &&& ((2 ^ w - 1) * 2 ^ k) = n / 2 ^ k % 2 ^ w * 2 ^ k := by
  apply Nat.eq_of_testBit_eq
  intro i
  simp only [Nat.testBit_and, Nat.testBit_mul_two_pow, Nat.testBit_two_pow_sub_one, Nat.testBit_mod_two_pow,
    Nat.testBit_div_two_pow]
  by_cases h : k ≤ i
  · rw [Nat.sub_add_cancel h]; cases n.testBit i <;> simp [h]
  · simp [h]

/-- Mask `F000` selects on the family. -/
theorem and_F000 (op : Word) : op &&& 0xF000 = BitVec.ofNat 16 (slice op 15 12 * 4096) := by
  apply BitVec.eq_of_toNat_eq
  have := nat_and_high op.toNat 12 4
  have := slice_lt op 15 12
  have m1 : BitVec.toNat (0xF000 : Word) = 61440 := rfl
  simp only [BitVec.toNat_and, BitVec.toNat_ofNat, slice, m1] at *
  norm_num at *
  omega

/-- Mask `F00F` selects on the family and `n`. -/
theorem and_F00F (op : Word) : op &&& 0xF00F = BitVec.ofNat 16 (slice op 15 12 * 4096 + slice op 3 0) := by
  have e : (0xF00F : Word) = 0xF000 ||| 0x000F := by decide
  have m1 : BitVec.toNat (0xF000 : Word) = 61440 := rfl
  have m2 : BitVec.toNat (0x000F : Word) = 15 := rfl
  apply BitVec.eq_of_toNat_eq
  have h1 := nat_and_high op.toNat 12 4
  have h2 := nat_and_high op.toNat 0 4
  have l1 := slice_lt op 15 12
  have l2 := slice_lt op 3 0
  have h3 := Nat.two_pow_add_eq_or_of_lt (i := 12) (b := op.toNat % 16) (by omega) (op.toNat / 4096 % 16)
  rw [e, BitVec.and_or_distrib_left]
  simp only [BitVec.toNat_or, BitVec.toNat_and, BitVec.toNat_ofNat, slice, m1, m2] at *
  norm_num at *
  rw [h1, h2, Nat.mul_comm (op.toNat / 4096 % 16) 4096, ← h3]
  omega

/-- Mask `F0FF` selects on the family and `lo`. -/
theorem and_F0FF (op : Word) : op &&& 0xF0FF = BitVec.ofNat 16 (slice op 15 12 * 4096 + slice op 7 0) := by
  have e : (0xF0FF : Word) = 0xF000 ||| 0x00FF := by decide
  have m1 : BitVec.toNat (0xF000 : Word) = 61440 := rfl
  have m2 : BitVec.toNat (0x00FF : Word) = 255 := rfl
  apply BitVec.eq_of_toNat_eq
  have h1 := nat_and_high op.toNat 12 4
  have h2 := nat_and_high op.toNat 0 8
  have l1 := slice_lt op 15 12
  have l2 := slice_lt op 7 0
  have h3 := Nat.two_pow_add_eq_or_of_lt (i := 12) (b := op.toNat % 256) (by omega) (op.toNat / 4096 % 16)
  rw [e, BitVec.and_or_distrib_left]
  simp only [BitVec.toNat_or, BitVec.toNat_and, BitVec.toNat_ofNat, slice, m1, m2] at *
  norm_num at *
  rw [h1, h2, Nat.mul_comm (op.toNat / 4096 % 16) 4096, ← h3]
  omega

/-- Mask `FFFF` selects on the whole word. -/
theorem and_FFFF (op : Word) : op &&& 0xFFFF = op := by
  have : (0xFFFF : Word) = BitVec.allOnes 16 := by decide
  rw [this, BitVec.and_allOnes]

/-! ### Bytes and words -/

/-- The two bytes of a word, the more significant first, make it again (R60). -/
theorem wordOfBytes_hi_lo (op : Word) : wordOfBytes (wordHi op) (wordLo op) = op := by
  apply BitVec.eq_of_toNat_eq
  have := op.isLt
  simp only [wordOfBytes, wordHi, wordLo, slice, BitVec.toNat_ofNat]
  norm_num
  omega

theorem decodeTableWord_eq (nbits w : Nat) :
    decodeTableWord nbits w =
      (match decode defaultConfig.family0Strict (tableWord nbits w) with | .ok i => some i | .error _ => none) := by
  rw [decodeTableWord, decodeBytes, wordOfBytes_hi_lo]
  cases decode defaultConfig.family0Strict (tableWord nbits w) <;> rfl

end Sys2Proof
end

