-- ==== Sys2Proof/Laws/Memory.lean ====
section
/-! SUPPORT. The laws of memory: a read after a write gives the value written, a write leaves every other address alone,
and every memory operation keeps the canonical form. -/

namespace Sys2Proof.Machine

theorem Memory.lookup_without (a b : Nat) (m : Memory) :
    Memory.lookup b (Memory.without a m) = if b = a then none else Memory.lookup b m := by
  induction m with
  | nil => simp [Memory.without, Memory.lookup]
  | cons c m ih =>
    simp only [Memory.without, List.filter_cons, bne_iff_ne, ne_eq] at ih ⊢
    by_cases hc : c.1 = a
    · by_cases hb : b = a
      · simp_all
      · have : c.1 ≠ b := by omega
        simp_all [Memory.lookup]
    · by_cases hb : b = a
      · simp_all [Memory.lookup]
      · simp_all [Memory.lookup]

theorem Memory.lookup_place (a b : Nat) (v : Byte) (m : Memory) (h : Memory.lookup a m = none) :
    Memory.lookup b (Memory.place a v m) = if b = a then some v else Memory.lookup b m := by
  induction m with
  | nil => simp [Memory.place, Memory.lookup, eq_comm]
  | cons c m ih =>
    have hca : c.1 ≠ a := fun e => by simp [Memory.lookup, e] at h
    have hm : Memory.lookup a m = none := by simpa [Memory.lookup, hca] using h
    unfold Memory.place
    split
    · by_cases hb : b = a
      · simp [Memory.lookup, hb]
      · simp [Memory.lookup, hb, Ne.symm hb]
    · rw [Memory.lookup, ih hm]
      by_cases hb : b = a
      · subst hb; simp [hca]
      · simp [Memory.lookup, hb]

/-- Read after write: the value written at the address, every other address as before. -/
theorem Memory.read_write (font : Vector Byte 80) (m : Memory) (a b : Nat) (v : Byte) :
    Memory.read font (Memory.write font m a v) b = if b = a then v else Memory.read font m b := by
  unfold Memory.write
  split
  · next h => by_cases hb : b = a <;> simp [Memory.read, Memory.lookup_without, hb, h]
  · have := Memory.lookup_place a b v (Memory.without a m) (by simp [Memory.lookup_without])
    by_cases hb : b = a
    · rw [Memory.read, this, if_pos hb, if_pos hb]
    · simp only [Memory.read, this, hb, if_false, Memory.lookup_without]

/-- Read after a run of writes from `a` upward. -/
theorem Memory.read_writeList (font : Vector Byte 80) (vs : List Byte) (m : Memory) (a b : Nat) :
    Memory.read font (Memory.writeList font m a vs) b =
      if h : a ≤ b ∧ b - a < vs.length then vs[b - a] else Memory.read font m b := by
  induction vs generalizing m a with
  | nil => simp [Memory.writeList]
  | cons v vs ih =>
    rw [Memory.writeList, ih]
    by_cases hb : b = a
    · subst hb; simp [Memory.read_write]
    · by_cases h : a + 1 ≤ b ∧ b - (a + 1) < vs.length
      · have h' : a ≤ b ∧ b - a < (v :: vs).length := by simp; omega
        have e : b - a = (b - (a + 1)) + 1 := by omega
        rw [dif_pos h, dif_pos h']
        simp [e]
      · have h' : ¬ (a ≤ b ∧ b - a < (v :: vs).length) := by simp; omega
        rw [dif_neg h, dif_neg h', Memory.read_write, if_neg hb]

theorem Memory.wf_without (font : Vector Byte 80) (a : Nat) (m : Memory) (h : Memory.wf font m) :
    Memory.wf font (Memory.without a m) :=
  ⟨h.1.filter _, fun c hc => h.2 c (List.mem_of_mem_filter hc)⟩

theorem Memory.mem_place (a : Nat) (v : Byte) (m : Memory) (c : Host.Cell) :
    c ∈ Memory.place a v m ↔ c = (a, v) ∨ c ∈ m := by
  induction m with
  | nil => simp [Memory.place]
  | cons d m ih =>
    unfold Memory.place
    split
    · simp
    · simp [ih]; tauto

theorem Memory.wf_place (font : Vector Byte 80) (a : Nat) (v : Byte) (m : Memory) (h : Memory.wf font m)
    (hfresh : ∀ c ∈ m, c.1 ≠ a) (ha : a < memSize) (hv : v ≠ initialByte font a) :
    Memory.wf font (Memory.place a v m) := by
  refine ⟨?_, fun c hc => ?_⟩
  · have hp := h.1
    clear h
    induction m with
    | nil => simp [Memory.place]
    | cons d m ih =>
      rw [List.pairwise_cons] at hp
      unfold Memory.place
      split
      · next hlt =>
        simp only [List.pairwise_cons, List.mem_cons, forall_eq_or_imp]
        exact ⟨⟨hlt, fun c hc => Nat.lt_trans hlt (hp.1 c hc)⟩, hp.1, hp.2⟩
      · next hlt =>
        have hne := hfresh d (by simp)
        rw [List.pairwise_cons]
        refine ⟨fun c hc => ?_, ih (fun c hc => hfresh c (by simp [hc])) hp.2⟩
        rcases (Memory.mem_place a v m c).1 hc with rfl | hc
        · show d.1 < a
          omega
        · exact hp.1 c hc
  · rcases (Memory.mem_place a v m c).1 hc with rfl | hc
    · exact ⟨ha, hv⟩
    · exact h.2 c hc

/-- A write inside memory keeps the canonical form. -/
theorem Memory.wf_write (font : Vector Byte 80) (m : Memory) (a : Nat) (v : Byte) (h : Memory.wf font m)
    (ha : a < memSize) : Memory.wf font (Memory.write font m a v) := by
  unfold Memory.write
  split
  · exact Memory.wf_without font a m h
  · next hv =>
    refine Memory.wf_place font a v _ (Memory.wf_without font a m h) (fun c hc => ?_) ha hv
    simpa [Memory.without] using (List.mem_filter.1 hc).2

/-- A run of writes inside memory keeps the canonical form. -/
theorem Memory.wf_writeList (font : Vector Byte 80) (vs : List Byte) (m : Memory) (a : Nat) (h : Memory.wf font m)
    (ha : a + vs.length ≤ memSize) : Memory.wf font (Memory.writeList font m a vs) := by
  induction vs generalizing m a with
  | nil => exact h
  | cons v vs ih =>
    simp only [List.length_cons] at ha
    exact ih _ _ (Memory.wf_write font m a v h (by omega)) (by omega)

/-- Reset memory is in canonical form. -/
theorem Memory.wf_nil (font : Vector Byte 80) : Memory.wf font [] := by simp [Memory.wf]

/-- An unlisted address above the font reads as zero. -/
theorem initialByte_of_le (font : Vector Byte 80) (a : Nat) (h : 80 ≤ a) : initialByte font a = 0 := by
  simp [initialByte, Nat.not_lt.2 h]

/-- An unlisted address in the font area reads as its font byte. -/
theorem initialByte_of_lt (font : Vector Byte 80) (a : Nat) (h : a < 80) : initialByte font a = font[a] := by
  simp [initialByte, h]

end Sys2Proof.Machine
end

