-- ==== Sys2Proof/Laws/State.lean ====
section
/-! SUPPORT. One lemma per field per named update of the state, all true by rfl, so that no later proof unfolds a record
update; and the same for the reset state. -/

namespace Sys2Proof.Machine

@[simp] theorem State.setReg_cfg (s : State) (x : Reg) (v : Byte) : (s.setReg x v).cfg = s.cfg := rfl
@[simp] theorem State.setReg_V (s : State) (x : Reg) (v : Byte) : (s.setReg x v).V = s.V.set x v := rfl
@[simp] theorem State.setReg_I (s : State) (x : Reg) (v : Byte) : (s.setReg x v).I = s.I := rfl
@[simp] theorem State.setReg_pc (s : State) (x : Reg) (v : Byte) : (s.setReg x v).pc = s.pc := rfl
@[simp] theorem State.setReg_sp (s : State) (x : Reg) (v : Byte) : (s.setReg x v).sp = s.sp := rfl
@[simp] theorem State.setReg_stack (s : State) (x : Reg) (v : Byte) : (s.setReg x v).stack = s.stack := rfl
@[simp] theorem State.setReg_dt (s : State) (x : Reg) (v : Byte) : (s.setReg x v).dt = s.dt := rfl
@[simp] theorem State.setReg_st (s : State) (x : Reg) (v : Byte) : (s.setReg x v).st = s.st := rfl
@[simp] theorem State.setReg_acc (s : State) (x : Reg) (v : Byte) : (s.setReg x v).acc = s.acc := rfl
@[simp] theorem State.setReg_mem (s : State) (x : Reg) (v : Byte) : (s.setReg x v).mem = s.mem := rfl
@[simp] theorem State.setReg_keys (s : State) (x : Reg) (v : Byte) : (s.setReg x v).keys = s.keys := rfl
@[simp] theorem State.setReg_fb (s : State) (x : Reg) (v : Byte) : (s.setReg x v).fb = s.fb := rfl
@[simp] theorem State.setReg_fault (s : State) (x : Reg) (v : Byte) : (s.setReg x v).fault = s.fault := rfl
@[simp] theorem State.setReg_inputs (s : State) (x : Reg) (v : Byte) : (s.setReg x v).inputs = s.inputs := rfl
@[simp] theorem State.setReg_cycle (s : State) (x : Reg) (v : Byte) : (s.setReg x v).cycle = s.cycle := rfl

@[simp] theorem State.setRegFlag_cfg (s : State) (x : Reg) (v f : Byte) : (s.setRegFlag x v f).cfg = s.cfg := rfl
@[simp] theorem State.setRegFlag_V (s : State) (x : Reg) (v f : Byte) :
    (s.setRegFlag x v f).V = (s.V.set x v).set VF f := rfl
@[simp] theorem State.setRegFlag_I (s : State) (x : Reg) (v f : Byte) : (s.setRegFlag x v f).I = s.I := rfl
@[simp] theorem State.setRegFlag_pc (s : State) (x : Reg) (v f : Byte) : (s.setRegFlag x v f).pc = s.pc := rfl
@[simp] theorem State.setRegFlag_sp (s : State) (x : Reg) (v f : Byte) : (s.setRegFlag x v f).sp = s.sp := rfl
@[simp] theorem State.setRegFlag_stack (s : State) (x : Reg) (v f : Byte) : (s.setRegFlag x v f).stack = s.stack := rfl
@[simp] theorem State.setRegFlag_dt (s : State) (x : Reg) (v f : Byte) : (s.setRegFlag x v f).dt = s.dt := rfl
@[simp] theorem State.setRegFlag_st (s : State) (x : Reg) (v f : Byte) : (s.setRegFlag x v f).st = s.st := rfl
@[simp] theorem State.setRegFlag_acc (s : State) (x : Reg) (v f : Byte) : (s.setRegFlag x v f).acc = s.acc := rfl
@[simp] theorem State.setRegFlag_mem (s : State) (x : Reg) (v f : Byte) : (s.setRegFlag x v f).mem = s.mem := rfl
@[simp] theorem State.setRegFlag_keys (s : State) (x : Reg) (v f : Byte) : (s.setRegFlag x v f).keys = s.keys := rfl
@[simp] theorem State.setRegFlag_fb (s : State) (x : Reg) (v f : Byte) : (s.setRegFlag x v f).fb = s.fb := rfl
@[simp] theorem State.setRegFlag_fault (s : State) (x : Reg) (v f : Byte) : (s.setRegFlag x v f).fault = s.fault := rfl
@[simp] theorem State.setRegFlag_inputs (s : State) (x : Reg) (v f : Byte) :
    (s.setRegFlag x v f).inputs = s.inputs := rfl
@[simp] theorem State.setRegFlag_cycle (s : State) (x : Reg) (v f : Byte) : (s.setRegFlag x v f).cycle = s.cycle := rfl

@[simp] theorem State.advance_cfg (s : State) : (s.advance).cfg = s.cfg := rfl
@[simp] theorem State.advance_V (s : State) : (s.advance).V = s.V := rfl
@[simp] theorem State.advance_I (s : State) : (s.advance).I = s.I := rfl
@[simp] theorem State.advance_pc (s : State) : (s.advance).pc = s.pc + 2 := rfl
@[simp] theorem State.advance_sp (s : State) : (s.advance).sp = s.sp := rfl
@[simp] theorem State.advance_stack (s : State) : (s.advance).stack = s.stack := rfl
@[simp] theorem State.advance_dt (s : State) : (s.advance).dt = s.dt := rfl
@[simp] theorem State.advance_st (s : State) : (s.advance).st = s.st := rfl
@[simp] theorem State.advance_acc (s : State) : (s.advance).acc = s.acc := rfl
@[simp] theorem State.advance_mem (s : State) : (s.advance).mem = s.mem := rfl
@[simp] theorem State.advance_keys (s : State) : (s.advance).keys = s.keys := rfl
@[simp] theorem State.advance_fb (s : State) : (s.advance).fb = s.fb := rfl
@[simp] theorem State.advance_fault (s : State) : (s.advance).fault = s.fault := rfl
@[simp] theorem State.advance_inputs (s : State) : (s.advance).inputs = s.inputs := rfl
@[simp] theorem State.advance_cycle (s : State) : (s.advance).cycle = s.cycle := rfl

@[simp] theorem State.skipIf_cfg (s : State) (c : Bool) : (s.skipIf c).cfg = s.cfg := rfl
@[simp] theorem State.skipIf_V (s : State) (c : Bool) : (s.skipIf c).V = s.V := rfl
@[simp] theorem State.skipIf_I (s : State) (c : Bool) : (s.skipIf c).I = s.I := rfl
@[simp] theorem State.skipIf_pc (s : State) (c : Bool) : (s.skipIf c).pc = s.pc + (if c then 4 else 2) := rfl
@[simp] theorem State.skipIf_sp (s : State) (c : Bool) : (s.skipIf c).sp = s.sp := rfl
@[simp] theorem State.skipIf_stack (s : State) (c : Bool) : (s.skipIf c).stack = s.stack := rfl
@[simp] theorem State.skipIf_dt (s : State) (c : Bool) : (s.skipIf c).dt = s.dt := rfl
@[simp] theorem State.skipIf_st (s : State) (c : Bool) : (s.skipIf c).st = s.st := rfl
@[simp] theorem State.skipIf_acc (s : State) (c : Bool) : (s.skipIf c).acc = s.acc := rfl
@[simp] theorem State.skipIf_mem (s : State) (c : Bool) : (s.skipIf c).mem = s.mem := rfl
@[simp] theorem State.skipIf_keys (s : State) (c : Bool) : (s.skipIf c).keys = s.keys := rfl
@[simp] theorem State.skipIf_fb (s : State) (c : Bool) : (s.skipIf c).fb = s.fb := rfl
@[simp] theorem State.skipIf_fault (s : State) (c : Bool) : (s.skipIf c).fault = s.fault := rfl
@[simp] theorem State.skipIf_inputs (s : State) (c : Bool) : (s.skipIf c).inputs = s.inputs := rfl
@[simp] theorem State.skipIf_cycle (s : State) (c : Bool) : (s.skipIf c).cycle = s.cycle := rfl

@[simp] theorem State.raise_cfg (s : State) (c : FatalCondition) : (s.raise c).cfg = s.cfg := rfl
@[simp] theorem State.raise_V (s : State) (c : FatalCondition) : (s.raise c).V = s.V := rfl
@[simp] theorem State.raise_I (s : State) (c : FatalCondition) : (s.raise c).I = s.I := rfl
@[simp] theorem State.raise_pc (s : State) (c : FatalCondition) : (s.raise c).pc = s.pc := rfl
@[simp] theorem State.raise_sp (s : State) (c : FatalCondition) : (s.raise c).sp = s.sp := rfl
@[simp] theorem State.raise_stack (s : State) (c : FatalCondition) : (s.raise c).stack = s.stack := rfl
@[simp] theorem State.raise_dt (s : State) (c : FatalCondition) : (s.raise c).dt = s.dt := rfl
@[simp] theorem State.raise_st (s : State) (c : FatalCondition) : (s.raise c).st = s.st := rfl
@[simp] theorem State.raise_acc (s : State) (c : FatalCondition) : (s.raise c).acc = s.acc := rfl
@[simp] theorem State.raise_mem (s : State) (c : FatalCondition) : (s.raise c).mem = s.mem := rfl
@[simp] theorem State.raise_keys (s : State) (c : FatalCondition) : (s.raise c).keys = s.keys := rfl
@[simp] theorem State.raise_fb (s : State) (c : FatalCondition) : (s.raise c).fb = s.fb := rfl
@[simp] theorem State.raise_fault (s : State) (c : FatalCondition) : (s.raise c).fault = some c := rfl
@[simp] theorem State.raise_inputs (s : State) (c : FatalCondition) : (s.raise c).inputs = s.inputs := rfl
@[simp] theorem State.raise_cycle (s : State) (c : FatalCondition) : (s.raise c).cycle = s.cycle := rfl

@[simp] theorem State.endCycle_cfg (s : State) : (s.endCycle).cfg = s.cfg := rfl
@[simp] theorem State.endCycle_V (s : State) : (s.endCycle).V = s.V := rfl
@[simp] theorem State.endCycle_I (s : State) : (s.endCycle).I = s.I := rfl
@[simp] theorem State.endCycle_pc (s : State) : (s.endCycle).pc = s.pc := rfl
@[simp] theorem State.endCycle_sp (s : State) : (s.endCycle).sp = s.sp := rfl
@[simp] theorem State.endCycle_stack (s : State) : (s.endCycle).stack = s.stack := rfl
@[simp] theorem State.endCycle_dt (s : State) : (s.endCycle).dt = s.dt := rfl
@[simp] theorem State.endCycle_st (s : State) : (s.endCycle).st = s.st := rfl
@[simp] theorem State.endCycle_acc (s : State) : (s.endCycle).acc = s.acc := rfl
@[simp] theorem State.endCycle_mem (s : State) : (s.endCycle).mem = s.mem := rfl
@[simp] theorem State.endCycle_keys (s : State) : (s.endCycle).keys = s.keys := rfl
@[simp] theorem State.endCycle_fb (s : State) : (s.endCycle).fb = s.fb := rfl
@[simp] theorem State.endCycle_fault (s : State) : (s.endCycle).fault = s.fault := rfl
@[simp] theorem State.endCycle_inputs (s : State) : (s.endCycle).inputs = s.inputs.tail := rfl
@[simp] theorem State.endCycle_cycle (s : State) : (s.endCycle).cycle = s.cycle + 1 := rfl

@[simp] theorem State.updateKeyboard_cfg (s : State) (k : Vector Bool 16) : (s.updateKeyboard k).cfg = s.cfg := rfl
@[simp] theorem State.updateKeyboard_V (s : State) (k : Vector Bool 16) : (s.updateKeyboard k).V = s.V := rfl
@[simp] theorem State.updateKeyboard_I (s : State) (k : Vector Bool 16) : (s.updateKeyboard k).I = s.I := rfl
@[simp] theorem State.updateKeyboard_pc (s : State) (k : Vector Bool 16) : (s.updateKeyboard k).pc = s.pc := rfl
@[simp] theorem State.updateKeyboard_sp (s : State) (k : Vector Bool 16) : (s.updateKeyboard k).sp = s.sp := rfl
@[simp] theorem State.updateKeyboard_stack (s : State) (k : Vector Bool 16) :
    (s.updateKeyboard k).stack = s.stack := rfl
@[simp] theorem State.updateKeyboard_dt (s : State) (k : Vector Bool 16) : (s.updateKeyboard k).dt = s.dt := rfl
@[simp] theorem State.updateKeyboard_st (s : State) (k : Vector Bool 16) : (s.updateKeyboard k).st = s.st := rfl
@[simp] theorem State.updateKeyboard_acc (s : State) (k : Vector Bool 16) : (s.updateKeyboard k).acc = s.acc := rfl
@[simp] theorem State.updateKeyboard_mem (s : State) (k : Vector Bool 16) : (s.updateKeyboard k).mem = s.mem := rfl
@[simp] theorem State.updateKeyboard_keys (s : State) (k : Vector Bool 16) : (s.updateKeyboard k).keys = k := rfl
@[simp] theorem State.updateKeyboard_fb (s : State) (k : Vector Bool 16) : (s.updateKeyboard k).fb = s.fb := rfl
@[simp] theorem State.updateKeyboard_fault (s : State) (k : Vector Bool 16) :
    (s.updateKeyboard k).fault = s.fault := rfl
@[simp] theorem State.updateKeyboard_inputs (s : State) (k : Vector Bool 16) :
    (s.updateKeyboard k).inputs = s.inputs := rfl
@[simp] theorem State.updateKeyboard_cycle (s : State) (k : Vector Bool 16) :
    (s.updateKeyboard k).cycle = s.cycle := rfl

@[simp] theorem State.arrive_cfg (s : State) : (s.arrive).cfg = s.cfg := rfl
@[simp] theorem State.arrive_V (s : State) : (s.arrive).V = s.V := rfl
@[simp] theorem State.arrive_I (s : State) : (s.arrive).I = s.I := rfl
@[simp] theorem State.arrive_pc (s : State) : (s.arrive).pc = s.pc := rfl
@[simp] theorem State.arrive_sp (s : State) : (s.arrive).sp = s.sp := rfl
@[simp] theorem State.arrive_stack (s : State) : (s.arrive).stack = s.stack := rfl
@[simp] theorem State.arrive_dt (s : State) : (s.arrive).dt = s.dt := rfl
@[simp] theorem State.arrive_st (s : State) : (s.arrive).st = s.st := rfl
@[simp] theorem State.arrive_acc (s : State) : (s.arrive).acc = s.acc := rfl
@[simp] theorem State.arrive_mem (s : State) : (s.arrive).mem = s.mem := rfl
@[simp] theorem State.arrive_keys (s : State) : (s.arrive).keys = s.cycleInput.keys.getD s.keys := rfl
@[simp] theorem State.arrive_fb (s : State) : (s.arrive).fb = s.fb := rfl
@[simp] theorem State.arrive_fault (s : State) : (s.arrive).fault = s.fault := rfl
@[simp] theorem State.arrive_inputs (s : State) : (s.arrive).inputs = s.inputs := rfl
@[simp] theorem State.arrive_cycle (s : State) : (s.arrive).cycle = s.cycle := rfl

@[simp] theorem State.placeAtPc_cfg (s : State) (op : Word) : (s.placeAtPc op).cfg = s.cfg := rfl
@[simp] theorem State.placeAtPc_V (s : State) (op : Word) : (s.placeAtPc op).V = s.V := rfl
@[simp] theorem State.placeAtPc_I (s : State) (op : Word) : (s.placeAtPc op).I = s.I := rfl
@[simp] theorem State.placeAtPc_pc (s : State) (op : Word) : (s.placeAtPc op).pc = s.pc := rfl
@[simp] theorem State.placeAtPc_sp (s : State) (op : Word) : (s.placeAtPc op).sp = s.sp := rfl
@[simp] theorem State.placeAtPc_stack (s : State) (op : Word) : (s.placeAtPc op).stack = s.stack := rfl
@[simp] theorem State.placeAtPc_dt (s : State) (op : Word) : (s.placeAtPc op).dt = s.dt := rfl
@[simp] theorem State.placeAtPc_st (s : State) (op : Word) : (s.placeAtPc op).st = s.st := rfl
@[simp] theorem State.placeAtPc_acc (s : State) (op : Word) : (s.placeAtPc op).acc = s.acc := rfl
@[simp] theorem State.placeAtPc_mem (s : State) (op : Word) :
    (s.placeAtPc op).mem = Memory.writeList s.cfg.font s.mem s.pc.toNat [wordHi op, wordLo op] := rfl
@[simp] theorem State.placeAtPc_keys (s : State) (op : Word) : (s.placeAtPc op).keys = s.keys := rfl
@[simp] theorem State.placeAtPc_fb (s : State) (op : Word) : (s.placeAtPc op).fb = s.fb := rfl
@[simp] theorem State.placeAtPc_fault (s : State) (op : Word) : (s.placeAtPc op).fault = s.fault := rfl
@[simp] theorem State.placeAtPc_inputs (s : State) (op : Word) : (s.placeAtPc op).inputs = s.inputs := rfl
@[simp] theorem State.placeAtPc_cycle (s : State) (op : Word) : (s.placeAtPc op).cycle = s.cycle := rfl

@[simp] theorem State.drawSprite_cfg (s : State) (vx vy : Byte) (rows : List Byte) :
    (s.drawSprite vx vy rows).cfg = s.cfg := rfl
@[simp] theorem State.drawSprite_V (s : State) (vx vy : Byte) (rows : List Byte) :
    (s.drawSprite vx vy rows).V = s.V.set VF (flagByte (xorCells (spriteCells s.cfg.displayW s.cfg.displayH vx.toNat vy.toNat 0 rows) s.fb).2) := rfl
@[simp] theorem State.drawSprite_I (s : State) (vx vy : Byte) (rows : List Byte) :
    (s.drawSprite vx vy rows).I = s.I := rfl
@[simp] theorem State.drawSprite_pc (s : State) (vx vy : Byte) (rows : List Byte) :
    (s.drawSprite vx vy rows).pc = s.pc := rfl
@[simp] theorem State.drawSprite_sp (s : State) (vx vy : Byte) (rows : List Byte) :
    (s.drawSprite vx vy rows).sp = s.sp := rfl
@[simp] theorem State.drawSprite_stack (s : State) (vx vy : Byte) (rows : List Byte) :
    (s.drawSprite vx vy rows).stack = s.stack := rfl
@[simp] theorem State.drawSprite_dt (s : State) (vx vy : Byte) (rows : List Byte) :
    (s.drawSprite vx vy rows).dt = s.dt := rfl
@[simp] theorem State.drawSprite_st (s : State) (vx vy : Byte) (rows : List Byte) :
    (s.drawSprite vx vy rows).st = s.st := rfl
@[simp] theorem State.drawSprite_acc (s : State) (vx vy : Byte) (rows : List Byte) :
    (s.drawSprite vx vy rows).acc = s.acc := rfl
@[simp] theorem State.drawSprite_mem (s : State) (vx vy : Byte) (rows : List Byte) :
    (s.drawSprite vx vy rows).mem = s.mem := rfl
@[simp] theorem State.drawSprite_keys (s : State) (vx vy : Byte) (rows : List Byte) :
    (s.drawSprite vx vy rows).keys = s.keys := rfl
@[simp] theorem State.drawSprite_fb (s : State) (vx vy : Byte) (rows : List Byte) :
    (s.drawSprite vx vy rows).fb = (xorCells (spriteCells s.cfg.displayW s.cfg.displayH vx.toNat vy.toNat 0 rows) s.fb).1 := rfl
@[simp] theorem State.drawSprite_fault (s : State) (vx vy : Byte) (rows : List Byte) :
    (s.drawSprite vx vy rows).fault = s.fault := rfl
@[simp] theorem State.drawSprite_inputs (s : State) (vx vy : Byte) (rows : List Byte) :
    (s.drawSprite vx vy rows).inputs = s.inputs := rfl
@[simp] theorem State.drawSprite_cycle (s : State) (vx vy : Byte) (rows : List Byte) :
    (s.drawSprite vx vy rows).cycle = s.cycle := rfl

@[simp] theorem State.withAccumulated_cfg (s : State) (t : Seconds) : (s.withAccumulated t).cfg = s.cfg := rfl
@[simp] theorem State.withAccumulated_V (s : State) (t : Seconds) : (s.withAccumulated t).V = s.V := rfl
@[simp] theorem State.withAccumulated_I (s : State) (t : Seconds) : (s.withAccumulated t).I = s.I := rfl
@[simp] theorem State.withAccumulated_pc (s : State) (t : Seconds) : (s.withAccumulated t).pc = s.pc := rfl
@[simp] theorem State.withAccumulated_sp (s : State) (t : Seconds) : (s.withAccumulated t).sp = s.sp := rfl
@[simp] theorem State.withAccumulated_stack (s : State) (t : Seconds) : (s.withAccumulated t).stack = s.stack := rfl
@[simp] theorem State.withAccumulated_mem (s : State) (t : Seconds) : (s.withAccumulated t).mem = s.mem := rfl
@[simp] theorem State.withAccumulated_keys (s : State) (t : Seconds) : (s.withAccumulated t).keys = s.keys := rfl
@[simp] theorem State.withAccumulated_fb (s : State) (t : Seconds) : (s.withAccumulated t).fb = s.fb := rfl
@[simp] theorem State.withAccumulated_fault (s : State) (t : Seconds) : (s.withAccumulated t).fault = s.fault := rfl
@[simp] theorem State.withAccumulated_inputs (s : State) (t : Seconds) : (s.withAccumulated t).inputs = s.inputs := rfl
@[simp] theorem State.withAccumulated_cycle (s : State) (t : Seconds) : (s.withAccumulated t).cycle = s.cycle := rfl

@[simp] theorem State.timerStep_cfg (s : State) (d : Seconds) : (s.timerStep d).cfg = s.cfg := rfl
@[simp] theorem State.timerStep_V (s : State) (d : Seconds) : (s.timerStep d).V = s.V := rfl
@[simp] theorem State.timerStep_I (s : State) (d : Seconds) : (s.timerStep d).I = s.I := rfl
@[simp] theorem State.timerStep_pc (s : State) (d : Seconds) : (s.timerStep d).pc = s.pc := rfl
@[simp] theorem State.timerStep_sp (s : State) (d : Seconds) : (s.timerStep d).sp = s.sp := rfl
@[simp] theorem State.timerStep_stack (s : State) (d : Seconds) : (s.timerStep d).stack = s.stack := rfl
@[simp] theorem State.timerStep_mem (s : State) (d : Seconds) : (s.timerStep d).mem = s.mem := rfl
@[simp] theorem State.timerStep_keys (s : State) (d : Seconds) : (s.timerStep d).keys = s.keys := rfl
@[simp] theorem State.timerStep_fb (s : State) (d : Seconds) : (s.timerStep d).fb = s.fb := rfl
@[simp] theorem State.timerStep_fault (s : State) (d : Seconds) : (s.timerStep d).fault = s.fault := rfl
@[simp] theorem State.timerStep_inputs (s : State) (d : Seconds) : (s.timerStep d).inputs = s.inputs := rfl
@[simp] theorem State.timerStep_cycle (s : State) (d : Seconds) : (s.timerStep d).cycle = s.cycle := rfl

@[simp] theorem State.resetWith_cfg (c : Config) : (State.resetWith c).cfg = c := rfl
@[simp] theorem State.resetWith_V (c : Config) : (State.resetWith c).V = Vector.replicate 16 0 := rfl
@[simp] theorem State.resetWith_I (c : Config) : (State.resetWith c).I = 0 := rfl
@[simp] theorem State.resetWith_pc (c : Config) : (State.resetWith c).pc = 0x200 := rfl
@[simp] theorem State.resetWith_sp (c : Config) : (State.resetWith c).sp = 0 := rfl
@[simp] theorem State.resetWith_stack (c : Config) : (State.resetWith c).stack = Vector.replicate 16 0 := rfl
@[simp] theorem State.resetWith_dt (c : Config) : (State.resetWith c).dt = 0 := rfl
@[simp] theorem State.resetWith_st (c : Config) : (State.resetWith c).st = 0 := rfl
@[simp] theorem State.resetWith_acc (c : Config) : (State.resetWith c).acc = Seconds.zero := rfl
@[simp] theorem State.resetWith_mem (c : Config) : (State.resetWith c).mem = [] := rfl
@[simp] theorem State.resetWith_keys (c : Config) : (State.resetWith c).keys = Vector.replicate 16 false := rfl
@[simp] theorem State.resetWith_fb (c : Config) : (State.resetWith c).fb = [] := rfl
@[simp] theorem State.resetWith_fault (c : Config) : (State.resetWith c).fault = none := rfl
@[simp] theorem State.resetWith_inputs (c : Config) : (State.resetWith c).inputs = [] := rfl
@[simp] theorem State.resetWith_cycle (c : Config) : (State.resetWith c).cycle = 0 := rfl

/-- The input of a cycle depends on the model's own two fields only. -/
theorem State.cycleInput_congr {s t : State} (hi : t.inputs = s.inputs) (hc : t.cycle = s.cycle) :
    t.cycleInput = s.cycleInput := by
  simp [State.cycleInput, hi, hc]

/-- Reading a byte depends on the font and the memory only. -/
theorem State.byteAt_congr {s t : State} (hf : t.cfg = s.cfg) (hm : t.mem = s.mem) (a : Nat) :
    t.byteAt a = s.byteAt a := by
  simp [State.byteAt, hf, hm]

@[simp] theorem State.cycleInput_arrive (s : State) : s.arrive.cycleInput = s.cycleInput := rfl
@[simp] theorem State.byteAt_arrive (s : State) (a : Nat) : s.arrive.byteAt a = s.byteAt a := rfl
@[simp] theorem State.byteAt_advance (s : State) (a : Nat) : s.advance.byteAt a = s.byteAt a := rfl
@[simp] theorem State.byteAt_endCycle (s : State) (a : Nat) : s.endCycle.byteAt a = s.byteAt a := rfl
@[simp] theorem State.byteAt_raise (s : State) (c : FatalCondition) (a : Nat) : (s.raise c).byteAt a = s.byteAt a := rfl

end Sys2Proof.Machine
end

