-- ==== Sys2Proof/Laws/Ops.lean ====
section
/-! SUPPORT. One lemma per shared operation, saying once everything it can do; the provers cite these. -/

namespace Sys2Proof.Machine

/-! ### Registers -/

/-- Read of a register after a write. -/
theorem State.reg_setReg (s : State) (x r : Reg) (v : Byte) :
    (s.setReg x v).reg r = if r = x then v else s.reg r := by
  simp only [State.reg, State.setReg, Fin.getElem_fin, Vector.getElem_set]
  by_cases h : r = x
  · simp [h]
  · have : x.val ≠ r.val := fun e => h (Fin.ext e.symm)
    simp [h, this]

/-- Read of a register after a result and a flag: the flag lands last (R197). -/
theorem State.reg_setRegFlag (s : State) (x r : Reg) (v f : Byte) :
    (s.setRegFlag x v f).reg r = if r = VF then f else if r = x then v else s.reg r := by
  rw [State.setRegFlag, State.reg_setReg, State.reg_setReg]

@[simp] theorem State.reg_advance (s : State) (r : Reg) : s.advance.reg r = s.reg r := rfl
@[simp] theorem State.reg_skipIf (s : State) (c : Bool) (r : Reg) : (s.skipIf c).reg r = s.reg r := rfl
@[simp] theorem State.reg_raise (s : State) (c : FatalCondition) (r : Reg) : (s.raise c).reg r = s.reg r := rfl
@[simp] theorem State.reg_arrive (s : State) (r : Reg) : s.arrive.reg r = s.reg r := rfl

/-- The block load: register `first + i` takes the `i`-th byte, every other register is as before. -/
theorem getElem_setRegsFrom (vs : List Byte) (first : Nat) (V : Vector Byte 16) (r : Nat) (hr : r < 16) :
    (setRegsFrom first V vs)[r] = if h : first ≤ r ∧ r - first < vs.length then vs[r - first] else V[r] := by
  induction vs generalizing first V with
  | nil => simp [setRegsFrom]
  | cons v vs ih =>
    rw [setRegsFrom, ih]
    by_cases hb : r = first
    · subst hb; simp
    · by_cases h : first + 1 ≤ r ∧ r - (first + 1) < vs.length
      · have h' : first ≤ r ∧ r - first < (v :: vs).length := by simp; omega
        have e : r - first = (r - (first + 1)) + 1 := by omega
        rw [dif_pos h, dif_pos h']
        simp [e]
      · have h' : ¬ (first ≤ r ∧ r - first < (v :: vs).length) := by simp; omega
        rw [dif_neg h, dif_neg h']
        simp [Ne.symm hb]

@[simp] theorem State.length_regsUpTo (s : State) (x : Reg) : (s.regsUpTo x).length = x.val + 1 := by
  simp [State.regsUpTo]

/-- The `i`-th byte of a block store is `V[i]`. -/
theorem State.getElem_regsUpTo (s : State) (x : Reg) (i : Nat) (h : i < (s.regsUpTo x).length) :
    (s.regsUpTo x)[i] = s.reg ⟨i, by simp at h; omega⟩ := by
  simp [State.regsUpTo, State.reg]

/-! ### Memory ranges -/

theorem checkRange_iff (a n : Nat) : checkRange a n = true ↔ n = 0 ∨ a + n ≤ memSize := by
  simp [checkRange]

/-- A range inside memory reads its bytes in order. -/
theorem State.readBytes_of_inRange (s : State) (a n : Nat) (h : n = 0 ∨ a + n ≤ memSize) :
    s.readBytes a n = some ((List.range n).map fun i => s.byteAt (a + i)) := by
  rw [State.readBytes, if_pos ((checkRange_iff a n).2 h)]

/-- A range that leaves memory reads nothing. -/
theorem State.readBytes_of_outOfRange (s : State) (a n : Nat) (h : ¬ (n = 0 ∨ a + n ≤ memSize)) :
    s.readBytes a n = none := by
  rw [State.readBytes, if_neg (fun e => h ((checkRange_iff a n).1 e))]

/-- A range inside memory is stored. -/
theorem State.writeBytes_of_inRange (s : State) (a : Nat) (vs : List Byte) (h : vs.length = 0 ∨ a + vs.length ≤ memSize) :
    s.writeBytes a vs = some { s with mem := Memory.writeList s.cfg.font s.mem a vs } := by
  rw [State.writeBytes, if_pos ((checkRange_iff a _).2 h)]

/-- A range that leaves memory stores nothing. -/
theorem State.writeBytes_of_outOfRange (s : State) (a : Nat) (vs : List Byte)
    (h : ¬ (vs.length = 0 ∨ a + vs.length ≤ memSize)) : s.writeBytes a vs = none := by
  rw [State.writeBytes, if_neg (fun e => h ((checkRange_iff a _).1 e))]

/-- What a store can answer: only memory changes, every byte of the range takes its value, every other byte is as before. -/
theorem State.writeBytes_some {s t : State} {a : Nat} {vs : List Byte} (h : s.writeBytes a vs = some t) :
    t = { s with mem := Memory.writeList s.cfg.font s.mem a vs } ∧ (vs.length = 0 ∨ a + vs.length ≤ memSize) ∧
      ∀ b, t.byteAt b = if hb : a ≤ b ∧ b - a < vs.length then vs[b - a] else s.byteAt b := by
  by_cases hr : vs.length = 0 ∨ a + vs.length ≤ memSize
  · rw [State.writeBytes_of_inRange s a vs hr, Option.some.injEq] at h
    subst h
    exact ⟨rfl, hr, fun b => Memory.read_writeList s.cfg.font vs s.mem a b⟩
  · rw [State.writeBytes_of_outOfRange s a vs hr] at h
    cases h

/-! ### The call stack -/

theorem State.push_some {s t : State} {a : Word} (h : s.push a = some t) :
    ∃ hs : s.sp.toNat < 16, t = { s with stack := s.stack.set s.sp.toNat a hs, sp := s.sp + 1 } := by
  unfold State.push at h
  split at h
  · next hs => exact ⟨hs, (Option.some.inj h).symm⟩
  · cases h

theorem State.popPc_some {s t : State} (h : s.popPc = some t) :
    ∃ hs : (s.sp - 1).toNat < 16, t = { s with sp := s.sp - 1, pc := s.stack[(s.sp - 1).toNat] } := by
  unfold State.popPc at h
  split at h
  · next hs => exact ⟨hs, (Option.some.inj h).symm⟩
  · cases h

/-! ### Flags and arithmetic -/

theorem addBytes_toNat (a b : Byte) : (addBytes a b).toNat = (a.toNat + b.toNat) % 256 := by
  simp [addBytes]
theorem subBytes_toNat (a b : Byte) : (subBytes a b).toNat = (256 + a.toNat - b.toNat) % 256 := by
  simp [subBytes]
theorem shiftedRight_toNat (a : Byte) : (shiftedRight a).toNat = a.toNat / 2 := by
  have := a.isLt; simp only [shiftedRight, BitVec.toNat_ofNat]; omega
theorem shiftedLeft_toNat (a : Byte) : (shiftedLeft a).toNat = a.toNat * 2 % 256 := by
  simp [shiftedLeft]
theorem flagByte_eq (b : Bool) : flagByte b = if b then 1 else 0 := rfl
theorem addrOf_toNat (nnn : BitVec 12) : (addrOf nnn).toNat = nnn.toNat := by
  have := nnn.isLt; simp only [addrOf, BitVec.toNat_ofNat]; omega
theorem wide_toNat (v : Byte) : (wide v).toNat = v.toNat := by
  have := v.isLt; simp only [wide, BitVec.toNat_ofNat]; omega
theorem glyphAddress_toNat (a : Byte) : (glyphAddress a).toNat = a.toNat * 5 := by
  have := a.isLt; simp only [glyphAddress, glyphBytes, BitVec.toNat_ofNat]; omega

/-! ### Keys -/

/-- The scan answers the least index that holds `true` (R264). -/
theorem firstTrue_eq_some (bs : List Bool) (i k : Nat) :
    firstTrue i bs = some k ↔ i ≤ k ∧ bs[k - i]? = some true ∧ ∀ j, i ≤ j → j < k → bs[j - i]? = some false := by
  induction bs generalizing i with
  | nil => simp [firstTrue]
  | cons b bs ih =>
    cases b with
    | true =>
      simp only [firstTrue, if_true, Option.some.injEq]
      constructor
      · rintro rfl; simp; omega
      · rintro ⟨h1, -, h3⟩
        by_contra hne
        have := h3 i (Nat.le_refl i) (by omega)
        simp at this
    | false =>
      simp only [firstTrue, Bool.false_eq_true, if_false, ih]
      constructor
      · rintro ⟨h1, h2, h3⟩
        refine ⟨by omega, ?_, fun j hj hk => ?_⟩
        · have : k - i = (k - (i + 1)) + 1 := by omega
          simpa [this] using h2
        · by_cases e : j = i
          · simp [e]
          · have : j - i = (j - (i + 1)) + 1 := by omega
            simpa [this] using h3 j (by omega) hk
      · rintro ⟨h1, h2, h3⟩
        have hne : k ≠ i := by rintro rfl; simp at h2
        refine ⟨by omega, ?_, fun j hj hk => ?_⟩
        · have : k - i = (k - (i + 1)) + 1 := by omega
          simpa [this] using h2
        · have : j - i = (j - (i + 1)) + 1 := by omega
          simpa [this] using h3 j (by omega) hk

/-- The scan answers none iff nothing holds `true`. -/
theorem firstTrue_eq_none (bs : List Bool) (i : Nat) : firstTrue i bs = none ↔ true ∉ bs := by
  induction bs generalizing i with
  | nil => simp [firstTrue]
  | cons b bs ih => cases b <;> simp [firstTrue, ih]

end Sys2Proof.Machine
end

