-- ==== Sys2Proof/Laws/Exec.lean ====
section
/-! SUPPORT. What every instruction's meaning does and does not do, said once: it never refuses, it stops only where the
stack has no entry, a next state is a raised condition or keeps `fault`, and the host's and the model's own fields are
never touched. -/

namespace Sys2Proof.Machine

/-- The outcomes of a meaning that answers a next state: a condition raised with nothing else changed, or a completed
instruction, which leaves `fault`, the parameters, the accumulator, the latch and the cycle's input alone. -/
theorem exec_next_cases {i : Instr} {s t : State} (h : exec i s = .next t) :
    (∃ c, t = s.raise c) ∨
      (t.fault = s.fault ∧ t.cfg = s.cfg ∧ t.acc = s.acc ∧ t.keys = s.keys ∧ t.inputs = s.inputs ∧ t.cycle = s.cycle) := by
  cases i
  case call nnn =>
    simp only [exec, execCall] at h
    split at h
    · exact Or.inl ⟨_, (Host.Outcome.next.inj h).symm⟩
    · split at h
      · next u hu =>
        obtain ⟨_, rfl⟩ := State.push_some hu
        cases h; exact Or.inr ⟨rfl, rfl, rfl, rfl, rfl, rfl⟩
      · cases h
  case ret x =>
    simp only [exec, execRet] at h
    split at h
    · exact Or.inl ⟨_, (Host.Outcome.next.inj h).symm⟩
    · split at h
      · next u hu =>
        obtain ⟨_, rfl⟩ := State.popPc_some hu
        cases h; exact Or.inr ⟨rfl, rfl, rfl, rfl, rfl, rfl⟩
      · cases h
  case ldVxK x =>
    simp only [exec, execLdVxK] at h
    split at h <;> cases h <;> exact Or.inr ⟨rfl, rfl, rfl, rfl, rfl, rfl⟩
  case drw x y n =>
    simp only [exec, execDrw] at h
    split at h <;> cases h
    · exact Or.inr ⟨rfl, rfl, rfl, rfl, rfl, rfl⟩
    · exact Or.inl ⟨_, rfl⟩
  case skp x =>
    simp only [exec, execSkp] at h
    split at h <;> cases h
    · exact Or.inr ⟨rfl, rfl, rfl, rfl, rfl, rfl⟩
    · exact Or.inl ⟨_, rfl⟩
  case sknp x =>
    simp only [exec, execSknp] at h
    split at h <;> cases h
    · exact Or.inr ⟨rfl, rfl, rfl, rfl, rfl, rfl⟩
    · exact Or.inl ⟨_, rfl⟩
  case ldVxMem x =>
    simp only [exec, execLdVxMem] at h
    split at h <;> cases h
    · exact Or.inr ⟨rfl, rfl, rfl, rfl, rfl, rfl⟩
    · exact Or.inl ⟨_, rfl⟩
  case ldBVx x =>
    simp only [exec, execLdBVx] at h
    split at h
    · next u hu =>
      obtain ⟨rfl, -⟩ := State.writeBytes_some hu
      cases h; exact Or.inr ⟨rfl, rfl, rfl, rfl, rfl, rfl⟩
    · cases h; exact Or.inl ⟨_, rfl⟩
  case ldMemVx x =>
    simp only [exec, execLdMemVx] at h
    split at h
    · next u hu =>
      obtain ⟨rfl, -⟩ := State.writeBytes_some hu
      cases h; exact Or.inr ⟨rfl, rfl, rfl, rfl, rfl, rfl⟩
    · cases h; exact Or.inl ⟨_, rfl⟩
  all_goals (cases h; exact Or.inr ⟨rfl, rfl, rfl, rfl, rfl, rfl⟩)

/-- No instruction is refused. -/
theorem exec_not_refused (i : Instr) (s : State) (r : Refusal) : exec i s ≠ .refused r := by
  intro h
  cases i <;>
    first
      | (cases h)
      | (simp only [exec, execDrw, execSkp, execSknp, execLdVxMem, execLdBVx, execLdMemVx] at h
         split at h <;> cases h)
      | (simp only [exec, execCall, execRet] at h
         split at h
         · cases h
         · split at h <;> cases h)

/-- A meaning stops only in `CALL` and `RET`, and only where `sp` holds more than 16. -/
theorem exec_fault_cases {i : Instr} {s : State} {r : Fault} (h : exec i s = .fault r) : 16 < s.sp.toNat := by
  cases i
  case call nnn =>
    simp only [exec, execCall] at h
    split at h
    · cases h
    · next hne =>
      split at h
      · cases h
      · next hn =>
        have : ¬ s.sp.toNat < 16 := fun hs => by rw [State.push, dif_pos hs] at hn; cases hn
        have : s.sp.toNat ≠ 16 := fun e => hne (BitVec.eq_of_toNat_eq e)
        omega
  case ret x =>
    simp only [exec, execRet] at h
    split at h
    · cases h
    · next hne =>
      split at h
      · cases h
      · next hn =>
        have h1 : ¬ (s.sp - 1).toNat < 16 := fun hs => by rw [State.popPc, dif_pos hs] at hn; cases hn
        have h2 : s.sp.toNat ≠ 0 := fun e => hne (BitVec.eq_of_toNat_eq e)
        have h3 : (s.sp - 1).toNat = s.sp.toNat - 1 := by
          have := s.sp.isLt
          rw [BitVec.toNat_sub, show (1 : Byte).toNat = 1 from rfl]
          omega
        omega
  all_goals
    first
      | (cases h)
      | (simp only [exec, execDrw, execSkp, execSknp, execLdVxMem, execLdBVx, execLdMemVx] at h
         split at h <;> cases h)

end Sys2Proof.Machine
end

