-- ==== Sys2Proof/Laws/Cycle.lean ====
section
/-! SUPPORT. What a step can do, said once: the four ways a cycle goes (spec/41_cycle.md R150). -/

namespace Sys2Proof.Machine

/-- The bytes a fetch reads, where it reads them. -/
theorem State.fetch_eq_some {s : State} {op : Word} (h : s.fetch = some op) :
    s.pc.toNat ≤ 4094 ∧ op = wordOfBytes (s.byteAt s.pc.toNat) (s.byteAt (s.pc.toNat + 1)) := by
  unfold State.fetch at h
  split at h
  · next hp => exact ⟨hp, (Option.some.inj h).symm⟩
  · cases h

theorem State.fetch_eq_none {s : State} : s.fetch = none ↔ 4094 < s.pc.toNat := by
  unfold State.fetch
  split <;> simp <;> omega

theorem State.fetch_arrive (s : State) : s.arrive.fetch = s.fetch := rfl

/-- The four ways a step that answers a next state goes: the machine is halted; the fetch leaves memory; the word is
unsupported; the instruction is executed. -/
theorem step_next_cases {s t : State} (h : step s = .next t) :
    (∃ c, s.fault = some c ∧ t = s.arrive.endCycle) ∨
    (s.fault = none ∧ s.fetch = none ∧ t = (s.arrive.raise (.memoryOutOfBounds s.pc s.pc)).endCycle) ∨
    (∃ op e, s.fault = none ∧ s.fetch = some op ∧ decode s.cfg.family0Strict op = .error e ∧
      t = (s.arrive.raise (.unsupportedOpcode op s.pc)).endCycle) ∨
    (∃ op i u, s.fault = none ∧ s.fetch = some op ∧ decode s.cfg.family0Strict op = .ok i ∧
      exec i s.arrive = .next u ∧ t = u.afterExecute) := by
  unfold step State.runCycle at h
  rw [State.fetch_arrive, State.arrive_fault, State.arrive_cfg, State.arrive_pc] at h
  split at h
  · next c hc => exact Or.inl ⟨c, hc, (Host.Outcome.next.inj h).symm⟩
  · next hc =>
    split at h
    · next hf => exact Or.inr (Or.inl ⟨hc, hf, (Host.Outcome.next.inj h).symm⟩)
    · next op hf =>
      split at h
      · next e he => exact Or.inr (Or.inr (Or.inl ⟨op, e, hc, hf, he, (Host.Outcome.next.inj h).symm⟩))
      · next i hi =>
        unfold finishCycle at h
        split at h
        · next u hu => exact Or.inr (Or.inr (Or.inr ⟨op, i, u, hc, hf, hi, hu, (Host.Outcome.next.inj h).symm⟩))
        · cases h
        · cases h

/-- A step that executes an instruction is `exec` of it, with the rest of the cycle around it. -/
theorem step_of_decode {s : State} {op : Word} {i : Instr} (hs : s.fault = none) (hf : s.fetch = some op)
    (hd : decode s.cfg.family0Strict op = .ok i) : step s = finishCycle (exec i s.arrive) := by
  unfold step State.runCycle
  rw [State.fetch_arrive, State.arrive_fault, State.arrive_cfg, hs]
  simp only [hf, hd]

/-- A halted machine's step. -/
theorem step_of_halted {s : State} {c : FatalCondition} (hs : s.fault = some c) : step s = .next s.arrive.endCycle := by
  unfold step State.runCycle
  rw [State.arrive_fault, hs]

/-- The step never refuses. -/
theorem step_not_refused (s : State) (r : Refusal) : step s ≠ .refused r := by
  intro h
  unfold step State.runCycle at h
  split at h
  · cases h
  · split at h
    · cases h
    · split at h
      · cases h
      · unfold finishCycle at h
        split at h
        · cases h
        · cases h
        · next hr => exact exec_not_refused _ _ _ hr

@[simp] theorem State.afterExecute_cfg (s : State) : s.afterExecute.cfg = s.cfg := by
  unfold State.afterExecute; split <;> simp
@[simp] theorem State.afterExecute_keys (s : State) : s.afterExecute.keys = s.keys := by
  unfold State.afterExecute; split <;> simp
@[simp] theorem State.afterExecute_V (s : State) : s.afterExecute.V = s.V := by
  unfold State.afterExecute; split <;> simp
@[simp] theorem State.afterExecute_I (s : State) : s.afterExecute.I = s.I := by
  unfold State.afterExecute; split <;> simp
@[simp] theorem State.afterExecute_pc (s : State) : s.afterExecute.pc = s.pc := by
  unfold State.afterExecute; split <;> simp
@[simp] theorem State.afterExecute_sp (s : State) : s.afterExecute.sp = s.sp := by
  unfold State.afterExecute; split <;> simp
@[simp] theorem State.afterExecute_stack (s : State) : s.afterExecute.stack = s.stack := by
  unfold State.afterExecute; split <;> simp
@[simp] theorem State.afterExecute_mem (s : State) : s.afterExecute.mem = s.mem := by
  unfold State.afterExecute; split <;> simp
@[simp] theorem State.afterExecute_fb (s : State) : s.afterExecute.fb = s.fb := by
  unfold State.afterExecute; split <;> simp
@[simp] theorem State.afterExecute_fault (s : State) : s.afterExecute.fault = s.fault := by
  unfold State.afterExecute; split <;> simp

end Sys2Proof.Machine
end

