-- ==== Sys2Proof/Laws/Framebuffer.lean ====
section
/-! SUPPORT. The laws of the framebuffer: toggling a cell, toggling a list of cells with the collision it reports, and
that both keep the canonical form, in which equal pictures are equal lists. -/

namespace Sys2Proof.Machine

theorem Framebuffer.lit_iff (fb : Framebuffer) (k : Nat) : Framebuffer.lit fb k = true ↔ k ∈ fb := by
  simp [Framebuffer.lit]

theorem Framebuffer.mem_light (k j : Nat) (fb : Framebuffer) : j ∈ Framebuffer.light k fb ↔ j = k ∨ j ∈ fb := by
  induction fb with
  | nil => simp [Framebuffer.light]
  | cons i fb ih =>
    unfold Framebuffer.light
    split
    · simp
    · simp [ih]; tauto

/-- Toggling a cell flips that cell and leaves every other alone. -/
theorem Framebuffer.lit_toggle (fb : Framebuffer) (k j : Nat) :
    Framebuffer.lit (Framebuffer.toggle fb k) j = (Framebuffer.lit fb j ^^ decide (j = k)) := by
  rw [Bool.eq_iff_iff, Framebuffer.lit_iff]
  unfold Framebuffer.toggle
  by_cases hk : k ∈ fb
  · simp only [(Framebuffer.lit_iff fb k).2 hk, if_true, List.mem_filter, bne_iff_ne, ne_eq]
    by_cases hj : j = k
    · subst hj; simp [(Framebuffer.lit_iff fb j).2 hk]
    · simp [hj, Framebuffer.lit_iff]
  · have hf : Framebuffer.lit fb k = false := by
      rw [Bool.eq_false_iff]; exact fun h => hk ((Framebuffer.lit_iff fb k).1 h)
    simp only [hf, Bool.false_eq_true, if_false, Framebuffer.mem_light]
    by_cases hj : j = k
    · subst hj; simp [hf]
    · simp [hj, Framebuffer.lit_iff]

theorem Framebuffer.wf_toggle (cells : Nat) (fb : Framebuffer) (k : Nat) (h : Framebuffer.wf cells fb) (hk : k < cells) :
    Framebuffer.wf cells (Framebuffer.toggle fb k) := by
  unfold Framebuffer.toggle
  split
  · exact ⟨h.1.filter _, fun j hj => h.2 j (List.mem_of_mem_filter hj)⟩
  · next hl =>
    have hfresh : k ∉ fb := fun hm => hl ((Framebuffer.lit_iff fb k).2 hm)
    refine ⟨?_, fun j hj => ?_⟩
    · have hp := h.1
      clear h hl
      induction fb with
      | nil => simp [Framebuffer.light]
      | cons i fb ih =>
        rw [List.pairwise_cons] at hp
        simp only [List.mem_cons, not_or] at hfresh
        unfold Framebuffer.light
        split
        · next hlt =>
          simp only [List.pairwise_cons, List.mem_cons, forall_eq_or_imp]
          exact ⟨⟨hlt, fun c hc => Nat.lt_trans hlt (hp.1 c hc)⟩, hp.1, hp.2⟩
        · next hlt =>
          rw [List.pairwise_cons]
          refine ⟨fun c hc => ?_, ih hfresh.2 hp.2⟩
          rcases (Framebuffer.mem_light k c fb).1 hc with rfl | hc
          · omega
          · exact hp.1 c hc
    · rcases (Framebuffer.mem_light k j fb).1 hj with rfl | hj
      · exact hk
      · exact h.2 j hj

theorem xorCells_wf (cells : Nat) (ks : List Nat) (fb : Framebuffer) (h : Framebuffer.wf cells fb)
    (hk : ∀ k ∈ ks, k < cells) : Framebuffer.wf cells (xorCells ks fb).1 := by
  induction ks generalizing fb with
  | nil => exact h
  | cons k ks ih =>
    exact ih _ (Framebuffer.wf_toggle cells fb k h (hk k (by simp))) (fun j hj => hk j (by simp [hj]))

/-- Toggling distinct cells flips exactly them. -/
theorem xorCells_lit (ks : List Nat) (fb : Framebuffer) (hd : ks.Nodup) (j : Nat) :
    Framebuffer.lit (xorCells ks fb).1 j = (Framebuffer.lit fb j ^^ decide (j ∈ ks)) := by
  induction ks generalizing fb with
  | nil => simp [xorCells]
  | cons k ks ih =>
    rw [List.nodup_cons] at hd
    simp only [xorCells, ih _ hd.2, Framebuffer.lit_toggle]
    by_cases hj : j = k
    · subst hj; simp [hd.1]
    · simp [hj]

/-- The collision of distinct cells: one of them was lit. -/
theorem xorCells_collision (ks : List Nat) (fb : Framebuffer) (hd : ks.Nodup) :
    (xorCells ks fb).2 = true ↔ ∃ k ∈ ks, Framebuffer.lit fb k = true := by
  induction ks generalizing fb with
  | nil => simp [xorCells]
  | cons k ks ih =>
    rw [List.nodup_cons] at hd
    simp only [xorCells, Bool.or_eq_true, ih _ hd.2, Framebuffer.lit_toggle, List.mem_cons, exists_eq_or_imp]
    refine or_congr Iff.rfl (exists_congr fun j => and_congr_right fun hj => ?_)
    have : j ≠ k := fun e => hd.1 (e ▸ hj)
    simp [this]

/-- In canonical form, equal pictures are equal lists. -/
theorem Framebuffer.ext_lit {fb gb : Framebuffer} (hf : fb.Pairwise (fun j k => j < k)) (hg : gb.Pairwise (fun j k => j < k))
    (h : ∀ k, Framebuffer.lit fb k = Framebuffer.lit gb k) : fb = gb := by
  refine List.Perm.eq_of_pairwise (le := fun j k => j < k) (fun a b _ _ h1 h2 => absurd h1 (by omega)) hf hg ?_
  have nd : ∀ l : List Nat, l.Pairwise (fun j k => j < k) → l.Nodup := fun l hl => hl.imp (fun h => Nat.ne_of_lt h)
  rw [List.perm_ext_iff_of_nodup (nd _ hf) (nd _ hg)]
  intro a
  rw [← Framebuffer.lit_iff, ← Framebuffer.lit_iff, h a]

end Sys2Proof.Machine
end

