-- ==== Sys2Proof/Laws/Display.lean ====
section
/-! SUPPORT. The cells a sprite covers (spec/45_display.md R243): which they are, that they are cells of the display, and
that no two of them coincide when the display is at least 8 by the sprite's rows (spec/00_scope.md R7). -/

namespace Sys2Proof.Machine

theorem mem_rowCells (w vx py : Nat) (row : Byte) (k : Nat) :
    k ∈ rowCells w vx py row ↔ ∃ c < 8, row.getLsbD (7 - c) = true ∧ k = py * w + (vx + c) % w := by
  simp only [rowCells, List.mem_map, List.mem_filter, List.mem_range, spriteCell, and_assoc]
  exact exists_congr fun c => and_congr_right fun _ => and_congr_right fun _ => eq_comm

/-- The cells of a sprite: row `i`, column `c` of its 1 bits, wrapped. -/
theorem mem_spriteCells (w h vx vy : Nat) (rows : List Byte) (r k : Nat) :
    k ∈ spriteCells w h vx vy r rows ↔
      ∃ i, ∃ hi : i < rows.length, ∃ c < 8, rows[i].getLsbD (7 - c) = true ∧
        k = (vy + r + i) % h * w + (vx + c) % w := by
  induction rows generalizing r with
  | nil => simp [spriteCells]
  | cons row rows ih =>
    rw [spriteCells, List.mem_append, mem_rowCells, ih]
    constructor
    · rintro (⟨c, hc, hb, rfl⟩ | ⟨i, hi, c, hc, hb, rfl⟩)
      · exact ⟨0, by simp, c, hc, by simpa using hb, by simp⟩
      · exact ⟨i + 1, by simpa using hi, c, hc, by simpa using hb, by rw [show vy + (r + 1) + i = vy + r + (i + 1) by omega]⟩
    · rintro ⟨i, hi, c, hc, hb, rfl⟩
      cases i with
      | zero => exact Or.inl ⟨c, hc, by simpa using hb, by simp⟩
      | succ i =>
        exact Or.inr ⟨i, by simpa using hi, c, hc, by simpa using hb, by
          rw [show vy + r + (i + 1) = vy + (r + 1) + i by omega]⟩

/-- Every cell of a sprite is a cell of the display. -/
theorem spriteCells_lt (w h vx vy : Nat) (rows : List Byte) (r k : Nat) (hw : 0 < w) (hh : 0 < h)
    (hk : k ∈ spriteCells w h vx vy r rows) : k < w * h := by
  obtain ⟨i, hi, c, -, -, rfl⟩ := (mem_spriteCells w h vx vy rows r k).1 hk
  have h1 := Nat.mod_lt (vx + c) hw
  have h2 := Nat.mod_lt (vy + r + i) hh
  calc (vy + r + i) % h * w + (vx + c) % w < ((vy + r + i) % h + 1) * w := by rw [Nat.succ_mul]; omega
    _ ≤ h * w := Nat.mul_le_mul_right w h2
    _ = w * h := Nat.mul_comm h w

/-- A cell names one column and one row. -/
theorem cell_inj {w py px py' px' : Nat} (hp : px < w) (hp' : px' < w) (h : py * w + px = py' * w + px') :
    py = py' ∧ px = px' := by
  have hw : 0 < w := by omega
  have e1 : (py * w + px) / w = py := by
    rw [Nat.mul_comm, Nat.mul_add_div hw, Nat.div_eq_of_lt hp, Nat.add_zero]
  have e2 : (py' * w + px') / w = py' := by
    rw [Nat.mul_comm, Nat.mul_add_div hw, Nat.div_eq_of_lt hp', Nat.add_zero]
  have : py = py' := by rw [← e1, ← e2, h]
  subst this
  exact ⟨rfl, by omega⟩

/-- Offsets below the modulus stay apart. -/
theorem mod_offset_inj {m a i j : Nat} (hi : i < m) (hj : j < m) (h : (a + i) % m = (a + j) % m) : i = j := by
  have := (Nat.ModEq.add_left_cancel' a (show a + i ≡ a + j [MOD m] from h) : i ≡ j [MOD m])
  rwa [Nat.ModEq, Nat.mod_eq_of_lt hi, Nat.mod_eq_of_lt hj] at this

/-- The cells of a sprite are pairwise distinct. -/
theorem spriteCells_nodup (w h vx vy : Nat) (rows : List Byte) (r : Nat) (hw : 8 ≤ w) (hr : r + rows.length ≤ h) :
    (spriteCells w h vx vy r rows).Nodup := by
  induction rows generalizing r with
  | nil => simp [spriteCells]
  | cons row rows ih =>
    simp only [List.length_cons] at hr
    have hw0 : 0 < w := by omega
    rw [spriteCells, List.nodup_append]
    refine ⟨?_, ih (r + 1) (by omega), ?_⟩
    · unfold rowCells
      refine List.Nodup.map_on ?_ (List.nodup_range.filter _)
      intro c hc d hd e
      simp only [List.mem_filter, List.mem_range] at hc hd
      exact mod_offset_inj (by omega) (by omega) (cell_inj (Nat.mod_lt _ hw0) (Nat.mod_lt _ hw0) e).2
    · intro k hk j hj e
      obtain ⟨c, -, -, rfl⟩ := (mem_rowCells w vx _ row k).1 hk
      obtain ⟨i, hi, d, -, -, rfl⟩ := (mem_spriteCells w h vx vy rows (r + 1) j).1 hj
      have := (cell_inj (Nat.mod_lt _ hw0) (Nat.mod_lt _ hw0) e).1
      have := mod_offset_inj (m := h) (a := vy) (i := r) (j := r + 1 + i) (by omega) (by omega) (by
        rw [this, show vy + (r + 1) + i = vy + (r + 1 + i) by omega])
      omega

end Sys2Proof.Machine
end

