-- ==== Sys2Proof/Laws/PerInstr.lean ====
section
/-! SUPPORT. Statements made of every instruction, one lemma per constructor. `RowMatch`: the word an instruction is
encoded as is selected by the opcode map's row of its own tag (spec/30_encoding.md R94). -/

namespace Sys2Proof.Laws.RowMatch

/-- The row of the instruction's tag selects the instruction's word (R94). -/
def Statement (i : Instr) : Prop := ∃ r ∈ opcodeRows false, r.tag = i.tag ∧ r.selects (encode i) = true

/-- A row under mask `F000` selects every word of its family. -/
theorem selects_F000 (tag f : Nat) (op : Word) (h : slice op 15 12 = f) :
    OpcodeRow.selects ⟨tag, 0xF000, BitVec.ofNat 16 (f * 4096)⟩ op = true := by
  rw [OpcodeRow.selects, beq_iff_eq, and_F000, h]

/-- A row under mask `F00F` selects on the family and `n`. -/
theorem selects_F00F (tag f n : Nat) (op : Word) (h : slice op 15 12 = f) (hn : slice op 3 0 = n) :
    OpcodeRow.selects ⟨tag, 0xF00F, BitVec.ofNat 16 (f * 4096 + n)⟩ op = true := by
  rw [OpcodeRow.selects, beq_iff_eq, and_F00F, h, hn]

/-- A row under mask `F0FF` selects on the family and `lo`. -/
theorem selects_F0FF (tag f lo : Nat) (op : Word) (h : slice op 15 12 = f) (hl : slice op 7 0 = lo) :
    OpcodeRow.selects ⟨tag, 0xF0FF, BitVec.ofNat 16 (f * 4096 + lo)⟩ op = true := by
  rw [OpcodeRow.selects, beq_iff_eq, and_F0FF, h, hl]

theorem cls (ignored : Fin 16) : Statement (.cls ignored) :=
  ⟨⟨0, 0xF0FF, BitVec.ofNat 16 (0 * 4096 + 224)⟩, by simp [opcodeRows, family0Mask], rfl,
    selects_F0FF 0 0 224 _ (formatX_family 0 ignored 224 (by decide) (by decide)) (formatX_lo 0 ignored 224 (by decide) (by decide))⟩
theorem ret (ignored : Fin 16) : Statement (.ret ignored) :=
  ⟨⟨1, 0xF0FF, BitVec.ofNat 16 (0 * 4096 + 238)⟩, by simp [opcodeRows, family0Mask], rfl,
    selects_F0FF 1 0 238 _ (formatX_family 0 ignored 238 (by decide) (by decide)) (formatX_lo 0 ignored 238 (by decide) (by decide))⟩
theorem jp (nnn : BitVec 12) : Statement (.jp nnn) :=
  ⟨⟨2, 0xF000, BitVec.ofNat 16 (1 * 4096)⟩, by simp [opcodeRows, family0Mask], rfl,
    selects_F000 2 1 _ (formatA_family 1 nnn (by decide))⟩
theorem call (nnn : BitVec 12) : Statement (.call nnn) :=
  ⟨⟨3, 0xF000, BitVec.ofNat 16 (2 * 4096)⟩, by simp [opcodeRows, family0Mask], rfl,
    selects_F000 3 2 _ (formatA_family 2 nnn (by decide))⟩
theorem seVxKk (x : Reg) (kk : Byte) : Statement (.seVxKk x kk) :=
  ⟨⟨4, 0xF000, BitVec.ofNat 16 (3 * 4096)⟩, by simp [opcodeRows, family0Mask], rfl,
    selects_F000 4 3 _ (formatXK_family 3 x kk (by decide))⟩
theorem sneVxKk (x : Reg) (kk : Byte) : Statement (.sneVxKk x kk) :=
  ⟨⟨5, 0xF000, BitVec.ofNat 16 (4 * 4096)⟩, by simp [opcodeRows, family0Mask], rfl,
    selects_F000 5 4 _ (formatXK_family 4 x kk (by decide))⟩
theorem seVxVy (x y : Reg) : Statement (.seVxVy x y) :=
  ⟨⟨6, 0xF00F, BitVec.ofNat 16 (5 * 4096 + 0)⟩, by simp [opcodeRows, family0Mask], rfl,
    selects_F00F 6 5 0 _ (formatXYN_family 5 x y 0 (by decide) (by decide))
    (formatXYN_n 5 x y 0 (by decide) (by decide))⟩
theorem ldVxKk (x : Reg) (kk : Byte) : Statement (.ldVxKk x kk) :=
  ⟨⟨7, 0xF000, BitVec.ofNat 16 (6 * 4096)⟩, by simp [opcodeRows, family0Mask], rfl,
    selects_F000 7 6 _ (formatXK_family 6 x kk (by decide))⟩
theorem addVxKk (x : Reg) (kk : Byte) : Statement (.addVxKk x kk) :=
  ⟨⟨8, 0xF000, BitVec.ofNat 16 (7 * 4096)⟩, by simp [opcodeRows, family0Mask], rfl,
    selects_F000 8 7 _ (formatXK_family 7 x kk (by decide))⟩
theorem ldVxVy (x y : Reg) : Statement (.ldVxVy x y) :=
  ⟨⟨9, 0xF00F, BitVec.ofNat 16 (8 * 4096 + 0)⟩, by simp [opcodeRows, family0Mask], rfl,
    selects_F00F 9 8 0 _ (formatXYN_family 8 x y 0 (by decide) (by decide))
    (formatXYN_n 8 x y 0 (by decide) (by decide))⟩
theorem or (x y : Reg) : Statement (.or x y) :=
  ⟨⟨10, 0xF00F, BitVec.ofNat 16 (8 * 4096 + 1)⟩, by simp [opcodeRows, family0Mask], rfl,
    selects_F00F 10 8 1 _ (formatXYN_family 8 x y 1 (by decide) (by decide))
    (formatXYN_n 8 x y 1 (by decide) (by decide))⟩
theorem and (x y : Reg) : Statement (.and x y) :=
  ⟨⟨11, 0xF00F, BitVec.ofNat 16 (8 * 4096 + 2)⟩, by simp [opcodeRows, family0Mask], rfl,
    selects_F00F 11 8 2 _ (formatXYN_family 8 x y 2 (by decide) (by decide))
    (formatXYN_n 8 x y 2 (by decide) (by decide))⟩
theorem xor (x y : Reg) : Statement (.xor x y) :=
  ⟨⟨12, 0xF00F, BitVec.ofNat 16 (8 * 4096 + 3)⟩, by simp [opcodeRows, family0Mask], rfl,
    selects_F00F 12 8 3 _ (formatXYN_family 8 x y 3 (by decide) (by decide))
    (formatXYN_n 8 x y 3 (by decide) (by decide))⟩
theorem addVxVy (x y : Reg) : Statement (.addVxVy x y) :=
  ⟨⟨13, 0xF00F, BitVec.ofNat 16 (8 * 4096 + 4)⟩, by simp [opcodeRows, family0Mask], rfl,
    selects_F00F 13 8 4 _ (formatXYN_family 8 x y 4 (by decide) (by decide))
    (formatXYN_n 8 x y 4 (by decide) (by decide))⟩
theorem sub (x y : Reg) : Statement (.sub x y) :=
  ⟨⟨14, 0xF00F, BitVec.ofNat 16 (8 * 4096 + 5)⟩, by simp [opcodeRows, family0Mask], rfl,
    selects_F00F 14 8 5 _ (formatXYN_family 8 x y 5 (by decide) (by decide))
    (formatXYN_n 8 x y 5 (by decide) (by decide))⟩
theorem shr (x y : Reg) : Statement (.shr x y) :=
  ⟨⟨15, 0xF00F, BitVec.ofNat 16 (8 * 4096 + 6)⟩, by simp [opcodeRows, family0Mask], rfl,
    selects_F00F 15 8 6 _ (formatXYN_family 8 x y 6 (by decide) (by decide))
    (formatXYN_n 8 x y 6 (by decide) (by decide))⟩
theorem subn (x y : Reg) : Statement (.subn x y) :=
  ⟨⟨16, 0xF00F, BitVec.ofNat 16 (8 * 4096 + 7)⟩, by simp [opcodeRows, family0Mask], rfl,
    selects_F00F 16 8 7 _ (formatXYN_family 8 x y 7 (by decide) (by decide))
    (formatXYN_n 8 x y 7 (by decide) (by decide))⟩
theorem shl (x y : Reg) : Statement (.shl x y) :=
  ⟨⟨17, 0xF00F, BitVec.ofNat 16 (8 * 4096 + 14)⟩, by simp [opcodeRows, family0Mask], rfl,
    selects_F00F 17 8 14 _ (formatXYN_family 8 x y 14 (by decide) (by decide))
    (formatXYN_n 8 x y 14 (by decide) (by decide))⟩
theorem sneVxVy (x y : Reg) : Statement (.sneVxVy x y) :=
  ⟨⟨18, 0xF00F, BitVec.ofNat 16 (9 * 4096 + 0)⟩, by simp [opcodeRows, family0Mask], rfl,
    selects_F00F 18 9 0 _ (formatXYN_family 9 x y 0 (by decide) (by decide))
    (formatXYN_n 9 x y 0 (by decide) (by decide))⟩
theorem ldINnn (nnn : BitVec 12) : Statement (.ldINnn nnn) :=
  ⟨⟨19, 0xF000, BitVec.ofNat 16 (10 * 4096)⟩, by simp [opcodeRows, family0Mask], rfl,
    selects_F000 19 10 _ (formatA_family 10 nnn (by decide))⟩
theorem jpV0Nnn (nnn : BitVec 12) : Statement (.jpV0Nnn nnn) :=
  ⟨⟨20, 0xF000, BitVec.ofNat 16 (11 * 4096)⟩, by simp [opcodeRows, family0Mask], rfl,
    selects_F000 20 11 _ (formatA_family 11 nnn (by decide))⟩
theorem rnd (x : Reg) (kk : Byte) : Statement (.rnd x kk) :=
  ⟨⟨21, 0xF000, BitVec.ofNat 16 (12 * 4096)⟩, by simp [opcodeRows, family0Mask], rfl,
    selects_F000 21 12 _ (formatXK_family 12 x kk (by decide))⟩
theorem drw (x y : Reg) (n : Fin 16) : Statement (.drw x y n) :=
  ⟨⟨22, 0xF000, BitVec.ofNat 16 (13 * 4096)⟩, by simp [opcodeRows, family0Mask], rfl,
    selects_F000 22 13 _ (formatXYN_family 13 x y n.val (by decide) n.isLt)⟩
theorem skp (x : Reg) : Statement (.skp x) :=
  ⟨⟨23, 0xF0FF, BitVec.ofNat 16 (14 * 4096 + 158)⟩, by simp [opcodeRows, family0Mask], rfl,
    selects_F0FF 23 14 158 _ (formatX_family 14 x 158 (by decide) (by decide))
    (formatX_lo 14 x 158 (by decide) (by decide))⟩
theorem sknp (x : Reg) : Statement (.sknp x) :=
  ⟨⟨24, 0xF0FF, BitVec.ofNat 16 (14 * 4096 + 161)⟩, by simp [opcodeRows, family0Mask], rfl,
    selects_F0FF 24 14 161 _ (formatX_family 14 x 161 (by decide) (by decide))
    (formatX_lo 14 x 161 (by decide) (by decide))⟩
theorem ldVxDt (x : Reg) : Statement (.ldVxDt x) :=
  ⟨⟨25, 0xF0FF, BitVec.ofNat 16 (15 * 4096 + 7)⟩, by simp [opcodeRows, family0Mask], rfl,
    selects_F0FF 25 15 7 _ (formatX_family 15 x 7 (by decide) (by decide))
    (formatX_lo 15 x 7 (by decide) (by decide))⟩
theorem ldVxK (x : Reg) : Statement (.ldVxK x) :=
  ⟨⟨26, 0xF0FF, BitVec.ofNat 16 (15 * 4096 + 10)⟩, by simp [opcodeRows, family0Mask], rfl,
    selects_F0FF 26 15 10 _ (formatX_family 15 x 10 (by decide) (by decide))
    (formatX_lo 15 x 10 (by decide) (by decide))⟩
theorem ldDtVx (x : Reg) : Statement (.ldDtVx x) :=
  ⟨⟨27, 0xF0FF, BitVec.ofNat 16 (15 * 4096 + 21)⟩, by simp [opcodeRows, family0Mask], rfl,
    selects_F0FF 27 15 21 _ (formatX_family 15 x 21 (by decide) (by decide))
    (formatX_lo 15 x 21 (by decide) (by decide))⟩
theorem ldStVx (x : Reg) : Statement (.ldStVx x) :=
  ⟨⟨28, 0xF0FF, BitVec.ofNat 16 (15 * 4096 + 24)⟩, by simp [opcodeRows, family0Mask], rfl,
    selects_F0FF 28 15 24 _ (formatX_family 15 x 24 (by decide) (by decide))
    (formatX_lo 15 x 24 (by decide) (by decide))⟩
theorem addIVx (x : Reg) : Statement (.addIVx x) :=
  ⟨⟨29, 0xF0FF, BitVec.ofNat 16 (15 * 4096 + 30)⟩, by simp [opcodeRows, family0Mask], rfl,
    selects_F0FF 29 15 30 _ (formatX_family 15 x 30 (by decide) (by decide))
    (formatX_lo 15 x 30 (by decide) (by decide))⟩
theorem ldFVx (x : Reg) : Statement (.ldFVx x) :=
  ⟨⟨30, 0xF0FF, BitVec.ofNat 16 (15 * 4096 + 41)⟩, by simp [opcodeRows, family0Mask], rfl,
    selects_F0FF 30 15 41 _ (formatX_family 15 x 41 (by decide) (by decide))
    (formatX_lo 15 x 41 (by decide) (by decide))⟩
theorem ldBVx (x : Reg) : Statement (.ldBVx x) :=
  ⟨⟨31, 0xF0FF, BitVec.ofNat 16 (15 * 4096 + 51)⟩, by simp [opcodeRows, family0Mask], rfl,
    selects_F0FF 31 15 51 _ (formatX_family 15 x 51 (by decide) (by decide))
    (formatX_lo 15 x 51 (by decide) (by decide))⟩
theorem ldMemVx (x : Reg) : Statement (.ldMemVx x) :=
  ⟨⟨32, 0xF0FF, BitVec.ofNat 16 (15 * 4096 + 85)⟩, by simp [opcodeRows, family0Mask], rfl,
    selects_F0FF 32 15 85 _ (formatX_family 15 x 85 (by decide) (by decide))
    (formatX_lo 15 x 85 (by decide) (by decide))⟩
theorem ldVxMem (x : Reg) : Statement (.ldVxMem x) :=
  ⟨⟨33, 0xF0FF, BitVec.ofNat 16 (15 * 4096 + 101)⟩, by simp [opcodeRows, family0Mask], rfl,
    selects_F0FF 33 15 101 _ (formatX_family 15 x 101 (by decide) (by decide))
    (formatX_lo 15 x 101 (by decide) (by decide))⟩

end Sys2Proof.Laws.RowMatch
end

