-- ==== Sys2Proof/Laws/Seconds.lean ====
section
/-! SUPPORT. The exact arithmetic on times agrees with the rational numbers (spec/41_cycle.md R157, decision D15). -/

namespace Sys2Proof.Machine

theorem Seconds.den_ne_zero (a : Seconds) : (a.den : ℚ) ≠ 0 := by
  have := a.den_pos
  exact_mod_cast Nat.pos_iff_ne_zero.1 this

theorem Seconds.toRat_ofFraction (n d : Nat) (h : 0 < d) : (Seconds.ofFraction n d h).toRat = (n : ℚ) / (d : ℚ) := by
  have hg : 0 < Nat.gcd n d := Nat.gcd_pos_of_pos_right n h
  have hg' : ((Nat.gcd n d : Nat) : ℚ) ≠ 0 := by exact_mod_cast hg.ne'
  simp only [Seconds.toRat, Seconds.ofFraction]
  rw [Nat.cast_div (Nat.gcd_dvd_left n d) hg', Nat.cast_div (Nat.gcd_dvd_right n d) hg']
  field_simp

/-- Times in lowest terms are equal when their values are. -/
theorem Seconds.ext_toRat {a b : Seconds} (h : a.toRat = b.toRat) : a = b := by
  have ha := Seconds.den_ne_zero a
  have hb := Seconds.den_ne_zero b
  have hx : a.num * b.den = b.num * a.den := by
    simp only [Seconds.toRat] at h
    rw [div_eq_div_iff ha hb] at h
    exact_mod_cast h
  have hd : a.den = b.den := by
    apply Nat.dvd_antisymm
    · exact (Nat.Coprime.symm a.reduced : Nat.Coprime a.den a.num).dvd_of_dvd_mul_left ⟨b.num, by rw [hx, Nat.mul_comm]⟩
    · exact (Nat.Coprime.symm b.reduced : Nat.Coprime b.den b.num).dvd_of_dvd_mul_left ⟨a.num, by rw [← hx, Nat.mul_comm]⟩
  have hn : a.num = b.num := by
    rw [hd] at hx
    exact Nat.eq_of_mul_eq_mul_right b.den_pos hx
  cases a; cases b; simp_all

theorem toRat_addTime (a b : Seconds) : (addTime a b).toRat = a.toRat + b.toRat := by
  rw [addTime, Seconds.toRat_ofFraction]
  have ha := Seconds.den_ne_zero a
  have hb := Seconds.den_ne_zero b
  simp only [Seconds.toRat]
  push_cast
  field_simp

theorem reaches_iff (a b : Seconds) : reaches a b = true ↔ b.toRat ≤ a.toRat := by
  have ha : (0 : ℚ) < a.den := by exact_mod_cast a.den_pos
  have hb : (0 : ℚ) < b.den := by exact_mod_cast b.den_pos
  simp only [reaches, decide_eq_true_eq, Seconds.toRat]
  rw [div_le_div_iff₀ hb ha]
  exact_mod_cast Iff.rfl

theorem toRat_subTime (a b : Seconds) (h : b.toRat ≤ a.toRat) : (subTime a b).toRat = a.toRat - b.toRat := by
  have hle : b.num * a.den ≤ a.num * b.den := by
    have := (reaches_iff a b).2 h
    simpa [reaches] using this
  rw [subTime, Seconds.toRat_ofFraction]
  have ha := Seconds.den_ne_zero a
  have hb := Seconds.den_ne_zero b
  simp only [Seconds.toRat]
  rw [Nat.cast_sub hle]
  push_cast
  field_simp

@[simp] theorem toRat_tick : tick.toRat = 1 / 60 := by simp [tick, Seconds.toRat]
@[simp] theorem toRat_zero : Seconds.zero.toRat = 0 := by simp [Seconds.zero, Seconds.toRat]

theorem countDown_toNat (t : Byte) : (countDown t).toNat = t.toNat - 1 := by
  revert t; decide

/-- The timer step, said once: at or above 1/60 second one tick and the remainder kept, below it neither timer moves
(spec/41_cycle.md R157). -/
theorem State.timerStep_spec (s : State) (d : Seconds) :
    (1 / 60 ≤ s.acc.toRat + d.toRat →
      (s.timerStep d).acc.toRat = s.acc.toRat + d.toRat - 1 / 60 ∧
        (s.timerStep d).dt = countDown s.dt ∧ (s.timerStep d).st = countDown s.st) ∧
    (s.acc.toRat + d.toRat < 1 / 60 →
      (s.timerStep d).acc.toRat = s.acc.toRat + d.toRat ∧ (s.timerStep d).dt = s.dt ∧ (s.timerStep d).st = s.st) := by
  unfold State.timerStep State.withAccumulated
  constructor
  · intro h
    have hr : reaches (addTime s.acc d) tick = true := by rw [reaches_iff, toRat_addTime, toRat_tick]; exact h
    simp only [if_pos hr, and_self, and_true]
    rw [toRat_subTime _ _ ((reaches_iff _ _).1 hr), toRat_addTime, toRat_tick]
  · intro h
    have hr : ¬ reaches (addTime s.acc d) tick = true := by
      rw [reaches_iff, toRat_addTime, toRat_tick]; exact not_le.2 h
    simp only [if_neg hr, and_self, and_true]
    exact toRat_addTime _ _

end Sys2Proof.Machine
end

