-- ==== Sys2Proof/Tests/Slice0.lean ====
section
/-! SUPPORT. The model's own tests. Expected results come from spec/95_test_vectors.md (the vector's id stands in the
docstring), or are worked by hand from the rule named; and for every statement with hypotheses a witness that meets them. -/

namespace Sys2Proof.Tests

open Sys2Proof Sys2Proof.Machine

/-! ### Small states -/

/-- One cycle's input: no key event, no time, the random byte `rnd`. -/
def quiet (rnd : Byte) : CycleInput := { keys := none, delta := Seconds.zero, rnd := rnd }

/-- The reset state with some registers preset and one quiet cycle to come. -/
def preset (rs : List (Reg × Byte)) : State :=
  rs.foldl (fun s r => s.setReg r.1 r.2) { State.reset with inputs := [quiet 0xA7] }

/-- One step with the word `op` at `pc` answers a next state of which `p` holds. -/
def shows (s : State) (op : Word) (p : State → Bool) : Bool :=
  match step (s.placeAtPc op) with
  | .next t => p t
  | _ => false

/-- The host's latch with the listed keys down. -/
def keysDown (ks : List Nat) : Vector Bool 16 := Vector.ofFn fun k => ks.elem k.val

/-! ### Well-formedness -/

/-- R102: under `FAMILY0_STRICT` bits 11:8 of `CLS` and `RET` must be zero; otherwise they are ignored. -/
theorem test_wellFormed_family0 :
    (Instr.cls 3).wellFormed true = false ∧ (Instr.ret 3).wellFormed true = false ∧
      (Instr.cls 0).wellFormed true = true ∧ (Instr.cls 3).wellFormed false = true ∧
      (Instr.ret 0xF).wellFormed false = true := by decide

/-! ### Decoding: a word of every kind (section 2: D1 to D40) -/

/-- D1, D4, D6, D7. -/
theorem test_decode_families_0_to_2 :
    decode false 0x00E0 = .ok (.cls 0) ∧ decode false 0x0FEE = .ok (.ret 0xF) ∧
      decode false 0x1FFF = .ok (.jp 0xFFF) ∧ decode false 0x2ABC = .ok (.call 0xABC) := by decide

/-- E4, D10, D11, D24. -/
theorem test_decode_skips :
    decode false 0x332A = .ok (.seVxKk 3 0x2A) ∧ decode false 0x4A55 = .ok (.sneVxKk 0xA 0x55) ∧
      decode false 0x5AB0 = .ok (.seVxVy 0xA 0xB) ∧ decode false 0x9CD0 = .ok (.sneVxVy 0xC 0xD) := by decide

/-- D13, D14, D27, D29. -/
theorem test_decode_families_6_7_C_D :
    decode false 0x6F00 = .ok (.ldVxKk 0xF 0x00) ∧ decode false 0x7E80 = .ok (.addVxKk 0xE 0x80) ∧
      decode false 0xC7F0 = .ok (.rnd 7 0xF0) ∧ decode false 0xD125 = .ok (.drw 1 2 5) := by decide

/-- D16 to D23, and `8xy0` by its pattern (R193). -/
theorem test_decode_family_8 :
    decode false 0x8AB0 = .ok (.ldVxVy 0xA 0xB) ∧ decode false 0x8AB1 = .ok (.or 0xA 0xB) ∧
      decode false 0x8AB2 = .ok (.and 0xA 0xB) ∧ decode false 0x8AB3 = .ok (.xor 0xA 0xB) ∧
      decode false 0x8AB4 = .ok (.addVxVy 0xA 0xB) ∧ decode false 0x8AB5 = .ok (.sub 0xA 0xB) ∧
      decode false 0x8AB6 = .ok (.shr 0xA 0xB) ∧ decode false 0x8AB7 = .ok (.subn 0xA 0xB) ∧
      decode false 0x8ABE = .ok (.shl 0xA 0xB) := by decide

/-- M1, D26 by its pattern (R174), K1, D31. -/
theorem test_decode_families_A_B_E :
    decode false 0xA230 = .ok (.ldINnn 0x230) ∧ decode false 0xB2FE = .ok (.jpV0Nnn 0x2FE) ∧
      decode false 0xE29E = .ok (.skp 2) ∧ decode false 0xEFA1 = .ok (.sknp 0xF) := by decide

/-- D32 to D40. -/
theorem test_decode_family_F :
    decode false 0xF007 = .ok (.ldVxDt 0) ∧ decode false 0xF10A = .ok (.ldVxK 1) ∧ decode false 0xF215 = .ok (.ldDtVx 2) ∧
      decode false 0xF318 = .ok (.ldStVx 3) ∧ decode false 0xF41E = .ok (.addIVx 4) ∧
      decode false 0xF529 = .ok (.ldFVx 5) ∧ decode false 0xF633 = .ok (.ldBVx 6) ∧
      decode false 0xF755 = .ok (.ldMemVx 7) ∧ decode false 0xFF65 = .ok (.ldVxMem 0xF) := by decide

/-- N1, N7, N8, N16, N18, N19, N47, and D3 under `FAMILY0_STRICT`. -/
theorem test_decode_unsupported :
    decode false 0x0000 = .error (.unsupported 0x0000) ∧ decode false 0x0123 = .error (.unsupported 0x0123) ∧
      decode false 0x5001 = .error (.unsupported 0x5001) ∧ decode false 0x800F = .error (.unsupported 0x800F) ∧
      decode false 0x9ABE = .error (.unsupported 0x9ABE) ∧ decode false 0xE000 = .error (.unsupported 0xE000) ∧
      decode false 0xFFFF = .error (.unsupported 0xFFFF) ∧ decode true 0x0FE0 = .error (.unsupported 0x0FE0) := by decide

/-- R60: the byte at the lower address is the more significant; the rest of the bytes is given back; one byte is none. -/
theorem test_decodeBytes :
    decodeBytes false [0x33, 0x2A, 0x77] = .ok (.seVxKk 3 0x2A, [0x77]) ∧
      decodeBytes false [0x33] = .error .tooShort ∧ encodeBytes (.ldINnn 0x230) = [0xA2, 0x30] := by decide

/-- R121, D27: the field outputs; R121: with `valid` = 0 the fields are still the wires of the word. -/
theorem test_decoderPorts :
    decoderPorts false 0xC7F0 = { kind := some 21, x := 7, y := 0xF, n := 0, kk := 0xF0, nnn := 0x7F0 } ∧
      (decoderPorts false 0x8128).kind = none ∧ (decoderPorts false 0x8128).y = 2 := by decide

/-- The host's two views of a table word: the decoder's answer, and the step that runs it first after reset. -/
theorem test_host_view :
    decodeTableWord 16 0xD125 = some (.drw 1 2 5) ∧ decodeTableWord 16 0x5001 = none ∧
      (State.reset.withFetchWord 16 0x6A2F).fetch = some 0x6A2F := by decide

/-- The step after `withFetchWord` runs the word whatever the free inputs are. -/
theorem test_host_step :
    (match step (State.reset.withFetchWord 16 0x6A2F) with | .next t => t.reg 0xA == 0x2F | _ => false) = true := by decide

/-- D5, D9, D13, D29, D33, D39, D40: texts (R130). -/
theorem test_disassemble :
    disassemble (.jp 0x000) = "jp 0x000" ∧ disassemble (.seVxKk 0xF 0xFF) = "se VF, 0xFF" ∧
      disassemble (.drw 0xF 0xF 0xF) = "drw VF, VF, 0xF" ∧ disassemble (.ldVxK 1) = "ld V1, K" ∧
      disassemble (.ldMemVx 7) = "ld [I], V7" ∧ disassemble (.shr 0xA 0xB) = "shr VA" := by decide

/-! ### Control flow (section 4) -/

/-- F12, F15. -/
theorem test_jp :
    shows (preset []) 0x1ABC (fun t => t.pc == 0xABC) ∧ shows (preset []) 0x1001 (fun t => t.pc == 0x001) := by decide
/-- F19, F18. -/
theorem test_call :
    shows { preset [] with pc := 0xFFE } 0x2300 (fun t => t.sp == 1 && t.stack[0] == 0x1000 && t.pc == 0x300) ∧
      shows { preset [] with sp := 16 } 0x2300 (fun t => t.fault == some (.stackOverflow 0x200) && t.pc == 0x200) := by
  decide
/-- F22 with its top entry, F21. -/
theorem test_ret :
    shows { preset [] with sp := 16, stack := (Vector.replicate 16 0).set 15 0x220, pc := 0x300 } 0x00EE
        (fun t => t.sp == 15 && t.pc == 0x220 && t.stack[15] == 0x220) ∧
      shows (preset []) 0x00EE (fun t => t.fault == some (.stackUnderflow 0x200) && t.pc == 0x200) := by decide
/-- F26, F25. -/
theorem test_jpV0Nnn :
    shows (preset [(0, 0xFF), (2, 0x11)]) 0xB2FE (fun t => t.pc == 0x3FD) ∧
      shows (preset [(0, 0xFF)]) 0xBFFF (fun t => t.pc == 0x10FE) := by decide
/-- F1, F2. -/
theorem test_seVxKk :
    shows (preset [(3, 0x2A)]) 0x332A (fun t => t.pc == 0x204) ∧ shows (preset [(3, 0x2B)]) 0x332A (fun t => t.pc == 0x202) := by
  decide
/-- F4, F5. -/
theorem test_sneVxKk :
    shows (preset [(0, 5)]) 0x4005 (fun t => t.pc == 0x202) ∧ shows (preset [(0, 4)]) 0x4005 (fun t => t.pc == 0x204) := by
  decide
/-- F6, F7. -/
theorem test_seVxVy :
    shows (preset [(1, 7), (2, 7)]) 0x5120 (fun t => t.pc == 0x204) ∧
      shows (preset [(1, 7), (2, 8)]) 0x5120 (fun t => t.pc == 0x202) := by decide
/-- F9, F10. -/
theorem test_sneVxVy :
    shows (preset [(1, 7), (2, 8)]) 0x9120 (fun t => t.pc == 0x204) ∧
      shows (preset [(1, 7), (2, 7)]) 0x9120 (fun t => t.pc == 0x202) := by decide

/-! ### Loads, arithmetic, logic, shifts, random (section 3) -/

/-- A1. -/
theorem test_ldVxKk : shows (preset []) 0x6A2F (fun t => t.reg 0xA == 0x2F && t.pc == 0x202) := by decide
/-- A4. -/
theorem test_addVxKk : shows (preset [(1, 1), (15, 1)]) 0x71FF (fun t => t.reg 1 == 0 && t.reg VF == 1) := by decide
/-- A6. -/
theorem test_ldVxVy : shows (preset [(1, 1), (2, 0x33)]) 0x8120 (fun t => t.reg 1 == 0x33 && t.reg 2 == 0x33) := by decide
/-- A7. -/
theorem test_or : shows (preset [(1, 0xF0), (2, 0x0F), (15, 1)]) 0x8121 (fun t => t.reg 1 == 0xFF && t.reg VF == 1) := by decide
/-- A8. -/
theorem test_and : shows (preset [(1, 0xF3), (2, 0x3F), (15, 1)]) 0x8122 (fun t => t.reg 1 == 0x33 && t.reg VF == 1) := by decide
/-- A9. -/
theorem test_xor : shows (preset [(1, 0xFF), (2, 0x0F), (15, 1)]) 0x8123 (fun t => t.reg 1 == 0xF0 && t.reg VF == 1) := by decide
/-- A13, A18. -/
theorem test_addVxVy :
    shows (preset [(1, 0x80), (2, 0x80)]) 0x8124 (fun t => t.reg 1 == 0 && t.reg VF == 1) ∧
      shows (preset [(15, 1), (1, 2)]) 0x8F14 (fun t => t.reg VF == 0) := by decide
/-- A23, A31. -/
theorem test_sub :
    shows (preset [(1, 7), (2, 7), (15, 1)]) 0x8125 (fun t => t.reg 1 == 0 && t.reg VF == 0) ∧
      shows (preset [(1, 9), (15, 1)]) 0x81F5 (fun t => t.reg 1 == 8 && t.reg VF == 1) := by decide
/-- A33, A36. -/
theorem test_subn :
    shows (preset [(1, 5), (2, 3), (15, 1)]) 0x8127 (fun t => t.reg 1 == 0xFE && t.reg VF == 0) ∧
      shows (preset [(15, 4), (2, 9)]) 0x8F27 (fun t => t.reg VF == 1) := by decide
/-- A42, S1. -/
theorem test_shr :
    shows (preset [(1, 5), (2, 0xEE)]) 0x8126 (fun t => t.reg 1 == 2 && t.reg VF == 1 && t.reg 2 == 0xEE) ∧
      shows { preset [(1, 5)] with cfg := { defaultConfig with shiftFlagSource := .after } } 0x8106
        (fun t => t.reg 1 == 2 && t.reg VF == 0) := by decide
/-- A49, S6. -/
theorem test_shl :
    shows (preset [(1, 0x81), (2, 0x11)]) 0x812E (fun t => t.reg 1 == 2 && t.reg VF == 1 && t.reg 2 == 0x11) ∧
      shows { preset [(1, 0x40)] with cfg := { defaultConfig with shiftFlagSource := .after } } 0x810E
        (fun t => t.reg 1 == 0x80 && t.reg VF == 1) := by decide
/-- A52 (the quiet input draws A7). -/
theorem test_rnd : shows (preset [(1, 0x77)]) 0xC10F (fun t => t.reg 1 == 7) := by decide

/-! ### Index register and memory (section 6) -/

/-- M2. -/
theorem test_ldINnn : shows { preset [] with I := 0x1234 } 0xAFFF (fun t => t.I == 0x0FFF) := by decide
/-- M5. -/
theorem test_addIVx : shows { preset [(2, 2)] with I := 0xFFFF } 0xF21E (fun t => t.I == 1 && t.reg VF == 0) := by decide
/-- M8, M9. -/
theorem test_ldFVx :
    shows (preset [(0, 0x0F)]) 0xF029 (fun t => t.I == 0x4B) ∧ shows (preset [(0, 0x10)]) 0xF029 (fun t => t.I == 0x50) := by
  decide
/-- M11, M16. -/
theorem test_ldBVx :
    shows { preset [(0, 0x9C)] with I := 0x230 } 0xF033
        (fun t => t.byteAt 0x230 == 1 && t.byteAt 0x231 == 5 && t.byteAt 0x232 == 6 && t.I == 0x230) ∧
      shows { preset [(0, 0x64)] with I := 0xFFE } 0xF033
        (fun t => t.fault == some (.memoryOutOfBounds 0xFFE 0x200) && t.byteAt 0xFFE == 0) := by decide
/-- M18, M21. -/
theorem test_ldMemVx :
    shows { preset [(0, 0x11), (1, 0x22), (2, 0x33)] with I := 0x300 } 0xF155
        (fun t => t.byteAt 0x300 == 0x11 && t.byteAt 0x301 == 0x22 && t.byteAt 0x302 == 0 && t.I == 0x300) ∧
      shows { preset [(0, 0xA0)] with I := 0xFF1 } 0xFF55
        (fun t => t.fault == some (.memoryOutOfBounds 0xFF1 0x200) && t.byteAt 0xFF1 == 0) := by decide
/-- M24, M26. -/
theorem test_ldVxMem :
    shows { preset [(3, 0x77)] with I := 0x200 } 0xF265
        (fun t => t.reg 0 == 0xF2 && t.reg 1 == 0x65 && t.reg 2 == 0 && t.reg 3 == 0x77) ∧
      shows { preset [(0, 0x55)] with I := 0xFFF } 0xF165
        (fun t => t.fault == some (.memoryOutOfBounds 0xFFF 0x200) && t.reg 0 == 0x55) := by decide

/-- R65, R67: a write of the reset value removes the entry, so that equal memories are equal data. -/
theorem test_memory_canonical :
    Memory.write defaultFont (Memory.write defaultFont [] 0x300 7) 0x300 0 = [] ∧
      Memory.write defaultFont [] 0 0xF0 = [] ∧ Memory.read defaultFont [] 0x4B = 0xF0 := by decide

/-! ### Display (section 5) -/

/-- G17. -/
theorem test_cls : shows { preset [(15, 1)] with fb := [0, 650, 2047] } 0x00E0 (fun t => t.fb == [] && t.reg VF == 1) := by decide
/-- G10 (row 31, columns 0, 61, 62, 63), G3. -/
theorem test_drw_wraps_and_collides :
    shows (preset [(1, 0xFD), (2, 0xFF)]) 0xD121 (fun t => t.fb == [1984, 2045, 2046, 2047] && t.reg VF == 0) ∧
      shows { preset [] with fb := [0] } 0xD011 (fun t => t.fb == [1, 2, 3] && t.reg VF == 1) := by decide
/-- G14, G15. -/
theorem test_drw_order :
    shows { preset [(15, 1)] with I := 0xFF2 } 0xD12F
        (fun t => t.fault == some (.memoryOutOfBounds 0xFF2 0x200) && t.reg VF == 1) ∧
      shows (preset [(15, 5)]) 0xDF01 (fun t => t.fb == [5, 6, 7, 8] && t.reg VF == 0) := by decide

/-! ### Keyboard and timers (section 7) -/

/-- K2, K3. -/
theorem test_skp :
    shows { preset [(2, 0xA)] with keys := keysDown [2] } 0xE29E (fun t => t.pc == 0x202) ∧
      shows { preset [(2, 0x10)] with keys := keysDown [0] } 0xE29E
        (fun t => t.fault == some (.keyIndexOutOfRange 0x10 0x200)) := by decide
/-- K4, K5. -/
theorem test_sknp :
    shows (preset [(2, 0xA)]) 0xE2A1 (fun t => t.pc == 0x204) ∧
      shows { preset [(2, 0xA)] with keys := keysDown [0xA] } 0xE2A1 (fun t => t.pc == 0x202) := by decide
/-- K7, K9. -/
theorem test_ldVxK :
    shows (preset [(3, 0x99)]) 0xF30A (fun t => t.pc == 0x200 && t.reg 3 == 0x99) ∧
      shows { preset [(3, 0x99)] with keys := keysDown [7, 0xC] } 0xF30A (fun t => t.pc == 0x202 && t.reg 3 == 7) := by decide
/-- K13: the value before this cycle's tick. -/
theorem test_ldVxDt :
    shows { preset [] with dt := 0x2C, inputs := [tickInput 0] } 0xF507 (fun t => t.reg 5 == 0x2C && t.dt == 0x2B) := by decide
/-- K15. -/
theorem test_ldDtVx :
    shows { preset [(5, 0x3C)] with inputs := [tickInput 0] } 0xF515 (fun t => t.dt == 0x3B && t.st == 0) := by decide
/-- K17. -/
theorem test_ldStVx : shows (preset [(5, 2)]) 0xF518 (fun t => t.st == 2 && t.dt == 0) := by decide

/-- Tm1, Tm4: no tick below 1/60; one tick of two, the remainder kept. -/
theorem test_timer_step :
    shows { preset [] with dt := 3, inputs := [{ keys := none, delta := { num := 1, den := 120 }, rnd := 0 }] } 0x1200
        (fun t => t.dt == 3 && t.acc == { num := 1, den := 120 }) ∧
      shows { preset [] with dt := 2, inputs := [{ keys := none, delta := { num := 1, den := 30 }, rnd := 0 }] } 0x1200
        (fun t => t.dt == 1 && t.acc == tick) := by decide

/-- X1, X3: the condition recorded, no tick. -/
theorem test_fatal :
    shows { preset [] with dt := 9, inputs := [tickInput 0] } 0x8128
        (fun t => t.fault == some (.unsupportedOpcode 0x8128 0x200) && t.dt == 9 && t.acc == Seconds.zero) ∧
      (match step { preset [] with pc := 0xFFF } with
        | .next t => t.fault == some (.memoryOutOfBounds 0xFFF 0xFFF) && t.pc == 0xFFF | _ => false) = true := by decide

/-- R301, R289: the host's keys reach the latch of a halted machine too, and nothing else changes. -/
theorem test_halted_latch :
    (match step { preset [] with
        fault := some (.stackUnderflow 0x200), inputs := [{ quiet 0 with keys := some (keysDown [3]) }] } with
      | .next t => t.keys == keysDown [3] && t.pc == 0x200 && t.fault == some (.stackUnderflow 0x200)
      | _ => false) = true := by decide

/-- E1: the image `00 E0 12 00` after reset. -/
theorem test_reset_image :
    (match reset defaultConfig (some [0x00, 0xE0, 0x12, 0x00]) with
      | .ok s => s.pc == 0x200 && s.fetch == some 0x00E0 && s.byteAt 0x202 == 0x12 && s.byteAt 0x4F == 0x80
      | .error _ => false) = true := by decide

/-! ### Witnesses: every statement with hypotheses has states and operands that meet them -/

/-- The quiet reset state with the word `op` at `pc`. -/
def booted (op : Word) : State := (preset []).placeAtPc op

/-- Obligations.DecodeOfEncodeIsTheInstruction. -/
theorem witness_wellFormed : (Instr.cls 0).wellFormed true = true ∧ (Instr.drw 15 15 15).wellFormed false = true := by decide

/-- Obligations.EncodeOfDecodeIsTheWord. -/
theorem witness_decoded : decode true 0x00EE = .ok (.ret 0) ∧ decode false 0xDFFF = .ok (.drw 0xF 0xF 0xF) := by decide

/-- Obligations.DecoderAgreesWithTheOpcodeMap: a row that selects a word, and the word decoded. -/
theorem witness_row_selects :
    (⟨33, 0xF0FF, 0xF065⟩ ∈ opcodeRows true ∧ (⟨33, 0xF0FF, 0xF065⟩ : OpcodeRow).selects 0xFF65 = true) ∧
      decode true 0xFF65 = .ok (.ldVxMem 0xF) := by decide

/-- Obligations.StepRunsTheDecodedInstruction, at the last address a fetch may have. -/
theorem witness_step_runs :
    let s := { preset [] with pc := 0xFFE }.placeAtPc 0x6A01
    s.running ∧ s.pc.toNat ≤ 4094 ∧ (Instr.ldVxKk 0xA 1).wellFormed s.cfg.family0Strict = true ∧
      decode s.cfg.family0Strict s.wordAtPc = .ok (.ldVxKk 0xA 1) := by decide

/-- Obligations.CycleCompletesOrChangesOnlyFault and TimerStepIsExact: a cycle that completes, and one that does not. -/
theorem witness_cycle :
    (∃ t, (booted 0x6A2F).running ∧ step (booted 0x6A2F) = .next t ∧ t.fault = none) ∧
      ∃ t, (booted 0x0000).running ∧ step (booted 0x0000) = .next t ∧ t.fault = some (.unsupportedOpcode 0x0000 0x200) :=
  ⟨⟨_, rfl, rfl, rfl⟩, ⟨_, rfl, rfl, rfl⟩⟩

/-- Obligations.ConditionsAreRaisedExactlyWhenTheTableSays: the clauses of the table besides the two of `witness_cycle`
and `witness_fetch_and_decode_faults`, each at the boundary of its range. -/
theorem witness_conditions :
    ExecutionRaises (.call 0x300) { preset [] with sp := 16 } (.stackOverflow 0x200) ∧
      ExecutionRaises (.ret 0) (preset []) (.stackUnderflow 0x200) ∧
      ExecutionRaises (.ldMemVx 1) { preset [] with I := 0xFFF } (.memoryOutOfBounds 0xFFF 0x200) ∧
      ExecutionRaises (.skp 2) (preset [(2, 16)]) (.keyIndexOutOfRange 16 0x200) ∧
      ∃ t, step (({ preset [] with sp := 16 } : State).placeAtPc 0x2300) = .next t ∧ t.fault = some (.stackOverflow 0x200) := by
  refine ⟨⟨rfl, rfl, 0x300, rfl⟩, ⟨rfl, rfl, 0, rfl⟩, ⟨rfl, rfl, ?_⟩, ⟨rfl, 2, Or.inl rfl, rfl, by decide⟩, ⟨_, rfl, rfl⟩⟩
  exact Or.inr (Or.inr ⟨1, Or.inl rfl, by decide⟩)

/-- Obligations.FetchAndDecodeFaults: `pc` at 4095, and at 4094 with a word that decodes to nothing. -/
theorem witness_fetch_and_decode_faults :
    (4094 < ({ preset [] with pc := 4095 } : State).pc.toNat ∧ ({ preset [] with pc := 4095 } : State).running) ∧
      ({ preset [] with pc := 4094 } : State).pc.toNat ≤ 4094 ∧
      decode false ({ preset [] with pc := 4094 } : State).wordAtPc = .error (.unsupported 0) := by decide

/-- Obligations.HaltedMachineNeverChanges. -/
theorem witness_halted : ({ preset [] with fault := some (.stackUnderflow 0x200) } : State).fault = some (.stackUnderflow 0x200) :=
  rfl

/-- Obligations.TimerStepIsExact: exactly 1/60 second ticks, less does not. -/
theorem witness_timer :
    (1 / 60 ≤ ({ booted 0x1200 with inputs := [tickInput 0] } : State).acc.toRat +
      ({ booted 0x1200 with inputs := [tickInput 0] } : State).cycleInput.delta.toRat) ∧
      (booted 0x1200).acc.toRat + (booted 0x1200).cycleInput.delta.toRat < 1 / 60 := by
  constructor
  · rw [show ({ booted 0x1200 with inputs := [tickInput 0] } : State).acc = Seconds.zero from rfl,
      show ({ booted 0x1200 with inputs := [tickInput 0] } : State).cycleInput.delta = tick from rfl, toRat_zero, toRat_tick]
    norm_num
  · rw [show (booted 0x1200).acc = Seconds.zero from rfl, show (booted 0x1200).cycleInput.delta = Seconds.zero from rfl,
      toRat_zero]
    norm_num

/-- Obligations.ParkedMachineStaysParked and ParkedMachineCountsTimersDown. -/
theorem witness_parked :
    let s := { booted 0x1200 with dt := 60, inputs := List.replicate 3 (tickInput 0) }
    s.parked = true ∧ s.acc = Seconds.zero ∧ s.inputs = List.replicate 3 (tickInput 0) := by decide

/-- Obligations.StepKeepsTheInvariant and StepCompletesUnderTheInvariant: a state with a full stack, stored bytes and lit
cells has the invariant, and it steps. -/
theorem witness_invariant :
    let s := { booted 0x6A2F with sp := 16, stack := Vector.replicate 16 4096, fb := [0, 2047] }
    s.Inv ∧ ∃ t, step s = .next t :=
  ⟨⟨by decide, by decide, by decide, by decide, by decide, by decide⟩, ⟨_, rfl⟩⟩

/-- Obligations.StepKeepsParametersAndLatch: with and without an `UpdateKeyboard`. -/
theorem witness_latch :
    (∃ t, step { booted 0x6A2F with inputs := [{ quiet 0 with keys := some (keysDown [3]) }] } = .next t ∧
      ({ booted 0x6A2F with inputs := [{ quiet 0 with keys := some (keysDown [3]) }] } : State).cycleInput.keys =
        some (keysDown [3])) ∧
      (∃ t, step (booted 0x6A2F) = .next t ∧ (booted 0x6A2F).cycleInput.keys = none) :=
  ⟨⟨_, rfl, rfl⟩, ⟨_, rfl, rfl⟩⟩

/-- Obligations.ResetLoadsFontAndProgram: the default parameters and the alternative display, no image and the longest. -/
theorem witness_reset :
    defaultConfig.wf = true ∧ ({ defaultConfig with displayW := 128, displayH := 64 } : Config).wf = true ∧
      ([] : List Byte).length ≤ 3584 ∧ (List.replicate 3584 (7 : Byte)).length ≤ 3584 := by
  simp only [List.length_replicate]; decide

/-- Obligations.ResetRefusesUnreadableOrLongImages: one byte too many. -/
theorem witness_reset_refuses : 3584 < (List.replicate 3585 (7 : Byte)).length := by
  rw [List.length_replicate]; decide

/-- Obligations.PcMovesAsTheTableSays: a skip, and clauses with a condition of their own, `RET` from the full stack, `SKP` of key 15,
`LD Vx, K` with a key down and with none. -/
theorem witness_pc_moves :
    (∃ t, exec (.ret 0) { preset [] with sp := 16 } = .next t ∧ t.fault = none) ∧
      (IsSkip (.skp 2) ∧ ∃ t, exec (.skp 2) (preset [(2, 15)]) = .next t ∧ t.fault = none) ∧
      (∃ t, exec (.ldVxK 2) { preset [] with keys := keysDown [15] } = .next t ∧ t.fault = none ∧
        (keysDown [15])[(15 : Fin 16)] = true) ∧
      (∃ t, exec (.ldVxK 2) (preset []) = .next t ∧ t.fault = none ∧ ∀ k : Fin 16, (preset []).keys[k] = false) :=
  ⟨⟨_, rfl, rfl⟩, ⟨trivial, _, rfl, rfl⟩, ⟨_, rfl, rfl, by decide⟩, ⟨_, rfl, rfl, by decide⟩⟩

/-- Obligations.RegistersWrittenAsTheMatrixSays and RegistersReadAsTheMatrixSays: `SHR V1, V2` writes no `V2`, reads no
`V2`; `LD V1, [I]` writes no `V2`. -/
theorem witness_matrices :
    (∃ t, exec (.shr 1 2) (preset []) = .next t) ∧ ¬ WritesReg (.shr 1 2) 2 ∧ ¬ ReadsReg (.shr 1 2) 2 ∧
      (∃ t, exec (.ldVxMem 1) (preset []) = .next t) ∧ ¬ WritesReg (.ldVxMem 1) 2 :=
  ⟨⟨_, rfl⟩, by simp [WritesReg]; decide, by simp [ReadsReg], ⟨_, rfl⟩, by simp [WritesReg]⟩

/-- Obligations.FlagWritingKindsLeaveZeroOrOne: each of the six completes. -/
theorem witness_flag_writing :
    (∃ t, exec (.addVxVy 15 1) (preset []) = .next t ∧ t.fault = none) ∧
      (∃ t, exec (.sub 15 1) (preset []) = .next t ∧ t.fault = none) ∧
      (∃ t, exec (.subn 15 1) (preset []) = .next t ∧ t.fault = none) ∧
      (∃ t, exec (.shr 15 1) (preset []) = .next t ∧ t.fault = none) ∧
      (∃ t, exec (.shl 15 1) (preset []) = .next t ∧ t.fault = none) ∧
      (∃ t, exec (.drw 15 1 15) (preset []) = .next t ∧ t.fault = none) :=
  ⟨⟨_, rfl, rfl⟩, ⟨_, rfl, rfl⟩, ⟨_, rfl, rfl⟩, ⟨_, rfl, rfl⟩, ⟨_, rfl, rfl⟩, ⟨_, rfl, rfl⟩⟩

/-- Obligations.MemoryIsWrittenByTheTwoStoresAlone, FramebufferIsChangedByClsAndDrwAlone and
SpecialRegistersAreChangedByTheirKindsAlone: `LD V1, [I]` is none of the kinds they name. -/
theorem witness_kinds_alone :
    (∃ t, exec (.ldVxMem 1) (preset []) = .next t) ∧ (∀ x, Instr.ldVxMem 1 ≠ .ldBVx x) ∧ (∀ x, Instr.ldVxMem 1 ≠ .ldMemVx x) ∧
      (∀ g, Instr.ldVxMem 1 ≠ .cls g) ∧ (∀ x y n, Instr.ldVxMem 1 ≠ .drw x y n) ∧ (∀ n, Instr.ldVxMem 1 ≠ .call n) ∧
      (∀ g, Instr.ldVxMem 1 ≠ .ret g) ∧ (∀ n, Instr.ldVxMem 1 ≠ .ldINnn n) ∧ (∀ x, Instr.ldVxMem 1 ≠ .addIVx x) ∧
      (∀ x, Instr.ldVxMem 1 ≠ .ldFVx x) ∧ (∀ x, Instr.ldVxMem 1 ≠ .ldDtVx x) ∧ (∀ x, Instr.ldVxMem 1 ≠ .ldStVx x) := by
  refine ⟨⟨_, rfl⟩, ?_⟩
  simp

/-- Obligations.SoundTimerShowsInNothingElse and FramebufferIsReadByTheDrawAlone. -/
theorem witness_shows_in_nothing_else :
    ∃ t, step (booted 0x6A2F) = .next t ∧
      ∀ x y n, decode (booted 0x6A2F).cfg.family0Strict (booted 0x6A2F).wordAtPc ≠ .ok (.drw x y n) := by
  refine ⟨_, rfl, fun x y n => ?_⟩
  rw [show decode (booted 0x6A2F).cfg.family0Strict (booted 0x6A2F).wordAtPc = .ok (.ldVxKk 0xA 0x2F) by decide]
  simp

/-- Obligations.StoredCodeIsFetched, at the top of memory. -/
theorem witness_stored_code :
    ({ preset [] with I := 0xFFE } : State).I.toNat + (1 : Reg).val ≤ 4095 ∧ (0 : Fin 16).val + 1 ≤ (1 : Reg).val ∧
      (0xFFE : Word).toNat = ({ preset [] with I := 0xFFE } : State).I.toNat + (0 : Fin 16).val := by decide

/-- Obligations.RetPopsTheReturnAddress and CallPushesTheReturnAddress: the empty stack, one entry, 15 entries, the full
stack; and the words under `FAMILY0_STRICT`. -/
theorem witness_stack :
    (preset []).sp = 0 ∧ ({ preset [] with sp := 1 } : State).sp.toNat = (0 : Fin 16).val + 1 ∧
      ({ preset [] with sp := 15 } : State).sp.toNat = (15 : Fin 16).val ∧
      ({ preset [] with sp := 16 } : State).sp.toNat = (15 : Fin 16).val + 1 ∧
      ({ preset [] with sp := 16 } : State).sp.toNat = 16 ∧ (true = true → (0 : Fin 16) = 0) := by decide

/-- Obligations.ReturnFollowsTheMatchingCall: the 16th call, and the state it leaves. -/
theorem witness_matching_call :
    ({ preset [] with sp := 15 } : State).sp.toNat < 16 ∧
      ∃ t, exec (.call 0x300) { preset [] with sp := 15 } = .next t ∧ ∃ u : State, u.sp = t.sp ∧ u.stack = t.stack :=
  ⟨by decide, _, rfl, _, rfl, rfl⟩

/-- Obligations.CompareAndSkip: equal and unequal. -/
theorem witness_compare : (preset [(1, 7)]).reg 1 = 7 ∧ (preset [(1, 7)]).reg 1 ≠ (preset [(1, 7)]).reg 2 := by decide

/-- Obligations.LoadsAndAddImmediate, LogicBitByBit, AddWithCarryOut, SubtractWithStrictFlag, ShiftByOne, TimerAccess: a
register that is neither the destination nor `VF`; both settings of `SHIFT_FLAG_SOURCE`. -/
theorem witness_frame :
    (2 : Reg) ≠ 1 ∧ (2 : Reg) ≠ VF ∧ (1 : Reg) ≠ VF ∧ (preset []).cfg.shiftFlagSource = .before ∧
      ({ preset [] with cfg := { defaultConfig with shiftFlagSource := .after } } : State).cfg.shiftFlagSource = .after := by
  decide

/-- Obligations.RandomIsTheMaskedDraw: a state with an input to come. -/
theorem witness_draw_of_rnd : (preset []).inputs = quiet 0xA7 :: [] := by decide

/-- Obligations.StoreDecimalDigits, StoreRegisters, LoadRegisters and BlockLoadRestoresBlockStore: the last `I` in range. -/
theorem witness_ranges :
    ({ preset [] with I := 4093 } : State).I.toNat + 2 ≤ 4095 ∧
      ({ preset [] with I := 0xFF0 } : State).I.toNat + (15 : Reg).val ≤ 4095 ∧
      ∃ t, exec (.ldMemVx 15) { preset [] with I := 0xFF0 } = .next t ∧
        ∃ u : State, u.I = 0xFF0 ∧ u.cfg = t.cfg ∧ u.mem = t.mem :=
  ⟨by decide, by decide, _, rfl, _, rfl, rfl, rfl⟩

/-- Obligations.RangeOutsideMemoryFaults: the first `I` out of range for each kind. -/
theorem witness_ranges_left :
    4095 < ({ preset [] with I := 4094 } : State).I.toNat + 2 ∧
      4095 < ({ preset [] with I := 0xFF1 } : State).I.toNat + (15 : Reg).val ∧
      1 ≤ (15 : Fin 16).val ∧ 4095 < ({ preset [] with I := 0xFF2 } : State).I.toNat + (15 : Fin 16).val - 1 := by decide

/-- Obligations.ClearDisplay: bits 11:8 under `FAMILY0_STRICT` and without it. -/
theorem witness_clear : (true = true → (0 : Fin 16) = 0) ∧ (false = true → (0xF : Fin 16) = 0) ∧ (0xF : Fin 16) ≠ 0 := by
  decide

/-- Obligations.DrawInvertsTheSpritePixels: the last `I` for 15 rows, no row at all; a pixel under a 1 bit of the glyph at
0x000, lit and unlit, and one under none. -/
theorem witness_draw :
    (preset []).cfg.wf = true ∧ DrawInRange { preset [] with I := 0xFF1 } 15 ∧ DrawInRange { preset [] with I := 0xFFFF } 0 ∧
      SpriteOn (preset []) 0 1 5 3 4 ∧ ({ preset [] with fb := [259] } : State).pixel 3 4 = true ∧
      (preset []).pixel 3 4 = false ∧ ¬ SpriteOn (preset []) 0 1 0 3 4 :=
  ⟨by decide, Or.inr (by decide), Or.inl rfl, ⟨4, by decide, 3, by decide, by decide, by decide, by decide⟩, by decide,
    by decide, fun ⟨_, h, _⟩ => absurd h (Nat.not_lt_zero _)⟩

/-- Obligations.DrawingTwiceRestoresTheDisplay. -/
theorem witness_draw_twice :
    (booted 0xD015).Inv ∧ (0 : Reg) ≠ VF ∧ (1 : Reg) ≠ VF ∧ DrawInRange (booted 0xD015) 5 :=
  ⟨⟨by decide, by decide, by decide, by decide, by decide, by decide⟩, by decide, by decide, Or.inr (by decide)⟩

/-- Obligations.KeySkips and KeyIndexAboveFifteenFaults: key 15, down and up, and 16. -/
theorem witness_keys :
    ((preset [(2, 15)]).reg 2).toNat = (15 : Fin 16).val ∧ (keysDown [15])[(15 : Fin 16)] = true ∧
      (keysDown [3])[(15 : Fin 16)] = false ∧ 15 < ((preset [(2, 16)]).reg 2).toNat := by decide

/-- Obligations.WaitForKey: keys 7 and 12 down, 7 the lowest; no key down, in a cycle that fetches the wait. -/
theorem witness_wait :
    ((keysDown [7, 12])[(7 : Fin 16)] = true ∧ ∀ j : Fin 16, j < 7 → (keysDown [7, 12])[j] = false) ∧
      (booted 0xF30A).running ∧ (booted 0xF30A).pc.toNat ≤ 4094 ∧
      decode (booted 0xF30A).cfg.family0Strict (booted 0xF30A).wordAtPc = .ok (.ldVxK 3) ∧
      ∀ j : Fin 16, (booted 0xF30A).arrive.keys[j] = false := by decide

end Sys2Proof.Tests
end

section
/-! PROOFS. The index register's load (spec/44_index_memory.md R220) and the word it is decoded from. -/

namespace Sys2Proof

/-- A format A word gives back the address it was made of (R91, R92). -/
theorem opNnn_formatA (f : Nat) (nnn : BitVec 12) (hf : f < 16) : opNnn (formatA f nnn) = nnn :=
  BitVec.eq_of_toNat_eq (by rw [opNnn_toNat, formatA_nnn f nnn hf])

/-- Family A is `LD I, nnn` and nothing else, whatever `FAMILY0_STRICT` is (R122). -/
theorem decode_of_family_A (strict : Bool) {op : Word} (h : opFamily op = 0xA) :
    decode strict op = .ok (.ldINnn (opNnn op)) := by
  simp only [decode, h]

theorem decode_encode_ldINnn (strict : Bool) (nnn : BitVec 12) :
    decode strict (encode (.ldINnn nnn)) = .ok (.ldINnn nnn) := by
  have family : opFamily (encode (.ldINnn nnn)) = 0xA := formatA_family 0xA nnn (by decide)
  have address : opNnn (encode (.ldINnn nnn)) = nnn := opNnn_formatA 0xA nnn (by decide)
  rw [decode_of_family_A strict family, address]

end Sys2Proof

namespace Sys2Proof.Machine

theorem exec_ldINnn (nnn : BitVec 12) (s : State) :
    exec (.ldINnn nnn) s = .next { s with I := addrOf nnn }.advance := rfl

/-- The frame of every instruction that sets the index register and goes on to the next instruction. -/
theorem onlyIndexPc_setIndex_advance (s : State) (i : Word) : OnlyIndexPc s { s with I := i }.advance :=
  ⟨rfl, State.byteAt_congr rfl rfl⟩

/-- Settles O41: the word `Annn` is the encoder's, so its decoding is the round trip of format A. -/
theorem loadIndex : Obligations.LoadIndex := by
  unfold Obligations.LoadIndex
  constructor
  · intro s nnn
    exact ⟨_, exec_ldINnn nnn s, addrOf_toNat nnn, State.advance_pc _, onlyIndexPc_setIndex_advance s _⟩
  · exact decode_encode_ldINnn

end Sys2Proof.Machine
end

section
/-! PROOFS. `CLS` (spec/45_display.md R241) and the words it is decoded from, with `FAMILY0_STRICT` and without it. -/

namespace Sys2Proof

/-- A format X word gives back the nibble it was made of (R91, R92). -/
theorem opX_formatX (f : Nat) (x : Fin 16) (lo : Nat) (hf : f < 16) (hl : lo < 256) : opX (formatX f x lo) = x :=
  Fin.ext (by rw [opX_val, formatX_x f x lo hf hl])

theorem decode_of_family_0 (strict : Bool) {op : Word} (h : opFamily op = 0x0) :
    decode strict op = decodeFamily0 strict op := by
  simp only [decode, h]

/-- Family 0 reads bits 11:8 only under `FAMILY0_STRICT`; where they pass, low byte `E0` is `CLS` (R122). -/
theorem decodeFamily0_of_lo_E0 {strict : Bool} {op : Word} (hx : strict = true → opX op = 0) (hlo : slice op 7 0 = 0xE0) :
    decodeFamily0 strict op = .ok (.cls (opX op)) := by
  have passes : (strict && opX op != 0) = false := by
    cases strict with
    | false => rfl
    | true => simp [hx rfl]
  simp [decodeFamily0, passes, hlo]

/-- Under `FAMILY0_STRICT` family 0 has no word with a nonzero nibble in bits 11:8 (R122). -/
theorem decodeFamily0_strict_of_opX_ne_zero {op : Word} (hx : opX op ≠ 0) :
    decodeFamily0 true op = .error (.unsupported op) := by
  simp [decodeFamily0, hx]

theorem encode_cls (g : Fin 16) : encode (.cls g) = BitVec.ofNat 16 (g.val * 256 + 0xE0) := by
  rw [encode, formatX, Nat.zero_mul, Nat.zero_add]

theorem opFamily_encode_cls (g : Fin 16) : opFamily (encode (.cls g)) = 0x0 :=
  formatX_family 0x0 g 0xE0 (by decide) (by decide)

theorem opX_encode_cls (g : Fin 16) : opX (encode (.cls g)) = g :=
  opX_formatX 0x0 g 0xE0 (by decide) (by decide)

theorem decode_encode_cls {strict : Bool} {g : Fin 16} (hg : strict = true → g = 0) :
    decode strict (encode (.cls g)) = .ok (.cls g) := by
  have ignored : strict = true → opX (encode (.cls g)) = 0 := by rwa [opX_encode_cls]
  have low : slice (encode (.cls g)) 7 0 = 0xE0 := formatX_lo 0x0 g 0xE0 (by decide) (by decide)
  rw [decode_of_family_0 strict (opFamily_encode_cls g), decodeFamily0_of_lo_E0 ignored low, opX_encode_cls]

theorem decode_strict_encode_cls {g : Fin 16} (hg : g ≠ 0) :
    decode true (encode (.cls g)) = .error (.unsupported (encode (.cls g))) := by
  have nonzero : opX (encode (.cls g)) ≠ 0 := by rwa [opX_encode_cls]
  rw [decode_of_family_0 true (opFamily_encode_cls g), decodeFamily0_strict_of_opX_ne_zero nonzero]

end Sys2Proof

namespace Sys2Proof.Machine

theorem exec_cls (g : Fin 16) (s : State) : exec (.cls g) s = .next { s with fb := [] }.advance := rfl

@[simp] theorem Framebuffer.lit_nil (k : Nat) : Framebuffer.lit [] k = false := rfl

/-- The frame of an instruction that sets the framebuffer alone and goes on to the next instruction. -/
theorem onlyDisplayRegsPc_setFb_advance (s : State) (fb : Framebuffer) :
    OnlyDisplayRegsPc s { s with fb := fb }.advance :=
  ⟨rfl, State.byteAt_congr rfl rfl⟩

/-- Settles O49: the cleared framebuffer lists no cell; the word `0gE0` is the encoder's, so what it decodes to is
decided by bits 11:8 alone. -/
theorem clearDisplay : Obligations.ClearDisplay := by
  unfold Obligations.ClearDisplay
  simp only [← encode_cls]
  refine ⟨fun s g => ?_, fun strict g => decode_encode_cls, fun g hg => ?_⟩
  · exact ⟨_, exec_cls g s, Framebuffer.lit_nil, State.reg_advance _, State.advance_pc _,
      onlyDisplayRegsPc_setFb_advance s []⟩
  · exact ⟨_, decode_strict_encode_cls hg⟩

end Sys2Proof.Machine
end

section
/-! PROOFS. The encoder and the decoder undo each other (spec/30_encoding.md R92, R94, spec/40_decoder.md R122): the
fields of an encoded word by format, and each format put together again from a word's fields. -/

namespace Sys2Proof

/-! ### The fields of each format, as the decoder names them -/

@[simp] theorem opFamily_formatA (f : Nat) (nnn : BitVec 12) (hf : f < 16) : opFamily (formatA f nnn) = f :=
  formatA_family f nnn hf

@[simp] theorem opFamily_formatXK (f : Nat) (x : Reg) (kk : Byte) (hf : f < 16) : opFamily (formatXK f x kk) = f :=
  formatXK_family f x kk hf

@[simp] theorem opX_formatXK (f : Nat) (x : Reg) (kk : Byte) (hf : f < 16) : opX (formatXK f x kk) = x :=
  Fin.ext (by rw [opX_val, formatXK_x f x kk hf])

@[simp] theorem opKk_formatXK (f : Nat) (x : Reg) (kk : Byte) (hf : f < 16) : opKk (formatXK f x kk) = kk :=
  BitVec.eq_of_toNat_eq (by rw [opKk_toNat, formatXK_kk f x kk hf])

@[simp] theorem opFamily_formatXYN (f : Nat) (x y : Reg) (n : Nat) (hf : f < 16) (hn : n < 16) :
    opFamily (formatXYN f x y n) = f :=
  formatXYN_family f x y n hf hn

@[simp] theorem opX_formatXYN (f : Nat) (x y : Reg) (n : Nat) (hf : f < 16) (hn : n < 16) :
    opX (formatXYN f x y n) = x :=
  Fin.ext (by rw [opX_val, formatXYN_x f x y n hf hn])

@[simp] theorem opY_formatXYN (f : Nat) (x y : Reg) (n : Nat) (hf : f < 16) (hn : n < 16) :
    opY (formatXYN f x y n) = y :=
  Fin.ext (by rw [opY_val, formatXYN_y f x y n hf hn])

@[simp] theorem opN_formatXYN (f : Nat) (x y n : Fin 16) (hf : f < 16) : opN (formatXYN f x y n.val) = n :=
  Fin.ext (by rw [opN_val, formatXYN_n f x y n.val hf n.isLt])

@[simp] theorem opFamily_formatX (f : Nat) (x : Fin 16) (lo : Nat) (hf : f < 16) (hl : lo < 256) :
    opFamily (formatX f x lo) = f :=
  formatX_family f x lo hf hl

/-! ### Decoding what was encoded -/

/-- `RET` passes the test of family 0 where bits 11:8 do (R122). -/
theorem decodeFamily0_of_lo_EE {strict : Bool} {op : Word} (hx : strict = true → opX op = 0)
    (hlo : slice op 7 0 = 0xEE) : decodeFamily0 strict op = .ok (.ret (opX op)) := by
  have passes : (strict && opX op != 0) = false := by
    cases strict with
    | false => rfl
    | true => simp [hx rfl]
  simp [decodeFamily0, passes, hlo]

theorem decode_encode_ret {strict : Bool} {g : Fin 16} (hg : strict = true → g = 0) :
    decode strict (encode (.ret g)) = .ok (.ret g) := by
  have family : opFamily (encode (.ret g)) = 0x0 := opFamily_formatX 0x0 g 0xEE (by decide) (by decide)
  have ignored : opX (encode (.ret g)) = g := opX_formatX 0x0 g 0xEE (by decide) (by decide)
  have low : slice (encode (.ret g)) 7 0 = 0xEE := formatX_lo 0x0 g 0xEE (by decide) (by decide)
  rw [decode_of_family_0 strict family, decodeFamily0_of_lo_EE (by rwa [ignored]) low, ignored]

/-- The condition under which `CLS` and `RET` are well formed (R102). -/
theorem ignored_eq_zero_iff {strict : Bool} {g : Fin 16} : (!strict || g == 0) = true ↔ (strict = true → g = 0) := by
  cases strict <;> simp

/-- Decoding undoes encoding: by format, the decoder reads back the fields the encoder wrote. -/
theorem decode_encode {strict : Bool} {i : Instr} (h : i.wellFormed strict = true) :
    decode strict (encode i) = .ok i := by
  cases i
  case cls g => exact decode_encode_cls (ignored_eq_zero_iff.1 h)
  case ret g => exact decode_encode_ret (ignored_eq_zero_iff.1 h)
  case jp nnn | call nnn | ldINnn nnn | jpV0Nnn nnn =>
    simp [encode, decode, opNnn_formatA]
  case seVxKk x kk | sneVxKk x kk | ldVxKk x kk | addVxKk x kk | rnd x kk =>
    simp [encode, decode]
  case drw x y n => simp [encode, decode]
  case seVxVy x y | sneVxVy x y => simp [encode, decode, decodeFamily59, formatXYN_n]
  case ldVxVy x y | or x y | and x y | xor x y | addVxVy x y | sub x y | shr x y | subn x y | shl x y =>
    simp [encode, decode, decodeFamily8, formatXYN_n]
  case skp x | sknp x => simp [encode, decode, decodeFamilyE, opX_formatX, formatX_lo]
  all_goals simp [encode, decode, decodeFamilyF, opX_formatX, formatX_lo]

/-- Settles O1, by the format of the instruction's word. -/
theorem decodeOfEncodeIsTheInstruction : Obligations.DecodeOfEncodeIsTheInstruction := by
  unfold Obligations.DecodeOfEncodeIsTheInstruction
  exact fun strict i => decode_encode

/-! ### Encoding what was decoded -/

theorem opFamily_lt (op : Word) : opFamily op < 16 := slice_lt op 15 12

section
variable {op : Word}

theorem formatA_of_fields {f : Nat} (hf : opFamily op = f) : formatA f (opNnn op) = op := by
  subst hf
  apply BitVec.eq_of_toNat_eq
  rw [toNat_formatA _ _ (opFamily_lt op), opNnn_toNat, slice_nnn, slice_kk, word_of_slices op, opFamily]
  omega

theorem formatXK_of_fields {f : Nat} (hf : opFamily op = f) : formatXK f (opX op) (opKk op) = op := by
  subst hf
  apply BitVec.eq_of_toNat_eq
  rw [toNat_formatXK _ _ _ (opFamily_lt op), opX_val, opKk_toNat, slice_kk, word_of_slices op, opFamily]
  omega

theorem formatXYN_of_fields {f n : Nat} (hf : opFamily op = f) (hn : slice op 3 0 = n) :
    formatXYN f (opX op) (opY op) n = op := by
  subst hf hn
  apply BitVec.eq_of_toNat_eq
  rw [toNat_formatXYN _ _ _ _ (opFamily_lt op) (slice_lt op 3 0), opX_val, opY_val, word_of_slices op, opFamily]

theorem formatX_of_fields {f lo : Nat} (hf : opFamily op = f) (hl : slice op 7 0 = lo) : formatX f (opX op) lo = op := by
  subst hf hl
  apply BitVec.eq_of_toNat_eq
  rw [toNat_formatX _ _ _ (opFamily_lt op) (slice_lt op 7 0), opX_val, slice_kk, word_of_slices op, opFamily]
  omega

theorem encode_of_decodeFamily0 {strict : Bool} {i : Instr} (hf : opFamily op = 0) (h : decodeFamily0 strict op = .ok i) :
    encode i = op ∧ i.wellFormed strict = true := by
  unfold decodeFamily0 at h
  split at h
  · cases h
  · next passes =>
    have ignored : (!strict || opX op == 0) = true := by
      cases strict
      · rfl
      · simpa using passes
    split at h
    · next low => cases h; exact ⟨formatX_of_fields hf low, ignored⟩
    · next low => cases h; exact ⟨formatX_of_fields hf low, ignored⟩
    · cases h

theorem decodeFamily59_eq_ok {i j : Instr} (h : decodeFamily59 op j = .ok i) : i = j ∧ slice op 3 0 = 0 := by
  unfold decodeFamily59 at h
  split at h
  · next low => cases h; exact ⟨rfl, low⟩
  · cases h

theorem encode_of_decodeFamily8 {i : Instr} (hf : opFamily op = 8) (h : decodeFamily8 op = .ok i) :
    encode i = op ∧ ∀ strict, i.wellFormed strict = true := by
  unfold decodeFamily8 at h
  split at h <;> cases h <;> exact ⟨formatXYN_of_fields hf ‹_›, fun _ => rfl⟩

theorem encode_of_decodeFamilyE {i : Instr} (hf : opFamily op = 14) (h : decodeFamilyE op = .ok i) :
    encode i = op ∧ ∀ strict, i.wellFormed strict = true := by
  unfold decodeFamilyE at h
  split at h <;> cases h <;> exact ⟨formatX_of_fields hf ‹_›, fun _ => rfl⟩

theorem encode_of_decodeFamilyF {i : Instr} (hf : opFamily op = 15) (h : decodeFamilyF op = .ok i) :
    encode i = op ∧ ∀ strict, i.wellFormed strict = true := by
  unfold decodeFamilyF at h
  split at h <;> cases h <;> exact ⟨formatX_of_fields hf ‹_›, fun _ => rfl⟩

/-- Encoding undoes decoding: each family's word is put together again from the fields its arm read. -/
theorem encode_of_decode {strict : Bool} {i : Instr} (h : decode strict op = .ok i) :
    encode i = op ∧ i.wellFormed strict = true := by
  have bound := opFamily_lt op
  unfold decode at h
  split at h
  case h_1 hf => exact encode_of_decodeFamily0 hf h
  case h_2 hf | h_3 hf | h_11 hf | h_12 hf => cases h; exact ⟨formatA_of_fields hf, rfl⟩
  case h_4 hf | h_5 hf | h_7 hf | h_8 hf | h_13 hf => cases h; exact ⟨formatXK_of_fields hf, rfl⟩
  case h_6 hf | h_10 hf =>
    obtain ⟨rfl, low⟩ := decodeFamily59_eq_ok h
    exact ⟨formatXYN_of_fields hf low, rfl⟩
  case h_9 hf => exact (encode_of_decodeFamily8 hf h).imp_right fun wf => wf strict
  case h_14 hf => cases h; exact ⟨formatXYN_of_fields hf (opN_val op).symm, rfl⟩
  case h_15 hf => exact (encode_of_decodeFamilyE hf h).imp_right fun wf => wf strict
  case h_16 =>
    have hf : opFamily op = 15 := by simp only [imp_false] at *; omega
    exact (encode_of_decodeFamilyF hf h).imp_right fun wf => wf strict

end

/-- Settles O2. -/
theorem encodeOfDecodeIsTheWord : Obligations.EncodeOfDecodeIsTheWord := by
  unfold Obligations.EncodeOfDecodeIsTheWord
  exact fun strict op i => encode_of_decode

end Sys2Proof
end

section
/-! PROOFS. The opcode map and the decoder agree (spec/30_encoding.md R94, R100, spec/40_decoder.md R122, R124). -/

namespace Sys2Proof

/-! ### The unsupported words, family by family -/

section
variable (op : Word)

theorem decodeFamily0_eq_error (strict : Bool) :
    decodeFamily0 strict op = .error (.unsupported op) ↔
      slice op 7 0 ∉ [0xE0, 0xEE] ∨ (strict = true ∧ slice op 11 8 ≠ 0) := by
  have nibble : opX op = 0 ↔ slice op 11 8 = 0 := by rw [← opX_val, Fin.ext_iff]; rfl
  unfold decodeFamily0
  split
  · next fails => simp_all
  · next passes =>
    have ignored : ¬ (strict = true ∧ slice op 11 8 ≠ 0) := by simpa [nibble] using passes
    split <;> simp_all

theorem decodeFamily59_eq_error (i : Instr) :
    decodeFamily59 op i = .error (.unsupported op) ↔ slice op 3 0 ≠ 0 := by
  unfold decodeFamily59
  split <;> simp_all

theorem decodeFamily8_eq_error :
    decodeFamily8 op = .error (.unsupported op) ↔ slice op 3 0 ∈ [0x8, 0x9, 0xA, 0xB, 0xC, 0xD, 0xF] := by
  have bound : slice op 3 0 < 16 := slice_lt op 3 0
  unfold decodeFamily8
  split
  case h_10 =>
    simp_all
    omega
  all_goals simp_all

theorem decodeFamilyE_eq_error :
    decodeFamilyE op = .error (.unsupported op) ↔ slice op 7 0 ∉ [0x9E, 0xA1] := by
  unfold decodeFamilyE
  split <;> simp_all

theorem decodeFamilyF_eq_error :
    decodeFamilyF op = .error (.unsupported op) ↔
      slice op 7 0 ∉ [0x07, 0x0A, 0x15, 0x18, 0x1E, 0x29, 0x33, 0x55, 0x65] := by
  unfold decodeFamilyF
  split <;> simp_all

end

/-- Settles O4: family by family; the families not named have no unsupported word. -/
theorem unsupportedWordsAreExactlyTheTable : Obligations.UnsupportedWordsAreExactlyTheTable := by
  unfold Obligations.UnsupportedWordsAreExactlyTheTable
  intro strict op
  have bound := opFamily_lt op
  rw [show slice op 15 12 = opFamily op from rfl]
  unfold decode
  split
  case h_1 hf => simp [hf, decodeFamily0_eq_error]
  case h_6 hf | h_10 hf => simp [hf, decodeFamily59_eq_error]
  case h_9 hf => simp [hf, decodeFamily8_eq_error]
  case h_15 hf => simp [hf, decodeFamilyE_eq_error]
  case h_16 =>
    have hf : opFamily op = 15 := by simp only [imp_false] at *; omega
    simp [hf, decodeFamilyF_eq_error]
  all_goals simp_all

/-! ### The rows -/

/-- A row stands for one kind: each word it selects is decoded, to an instruction with the row's tag (R94, R124). -/
def OpcodeRow.Decodes (strict : Bool) (op : Word) (r : OpcodeRow) : Prop :=
  r.selects op = true → ∃ i, decode strict op = .ok i ∧ i.tag = r.tag

/-- A word that is the encoding of `i` is decoded to `i`: the round trip, read from the word. -/
theorem decode_of_encode_eq {strict : Bool} {op : Word} {i : Instr} (h : encode i = op)
    (wf : i.wellFormed strict = true) : decode strict op = .ok i :=
  h ▸ decode_encode wf

namespace OpcodeRow

section
variable {strict : Bool} {op : Word} {tag f : Nat} (i : Instr)

theorem decodes_F000 (hf : f < 16) (h : opFamily op = f → encode i = op) (wf : i.wellFormed strict = true)
    (ht : i.tag = tag) : Decodes strict op ⟨tag, 0xF000, BitVec.ofNat 16 (f * 4096)⟩ := by
  intro selected
  simp only [selects, beq_iff_eq, and_F000, BitVec.toNat_eq, BitVec.toNat_ofNat] at selected
  have := opFamily_lt op
  have family : opFamily op = f := by simp only [opFamily] at *; omega
  exact ⟨i, decode_of_encode_eq (h family) wf, ht⟩

theorem decodes_F00F {n : Nat} (hf : f < 16) (hn : n < 16)
    (h : opFamily op = f → slice op 3 0 = n → encode i = op) (wf : i.wellFormed strict = true) (ht : i.tag = tag) :
    Decodes strict op ⟨tag, 0xF00F, BitVec.ofNat 16 (f * 4096 + n)⟩ := by
  intro selected
  simp only [selects, beq_iff_eq, and_F00F, BitVec.toNat_eq, BitVec.toNat_ofNat] at selected
  have := opFamily_lt op
  have := slice_lt op 3 0
  have family : opFamily op = f := by simp only [opFamily] at *; omega
  exact ⟨i, decode_of_encode_eq (h family (by omega)) wf, ht⟩

theorem decodes_F0FF {lo : Nat} (hf : f < 16) (hl : lo < 256)
    (h : opFamily op = f → slice op 7 0 = lo → encode i = op) (wf : i.wellFormed strict = true) (ht : i.tag = tag) :
    Decodes strict op ⟨tag, 0xF0FF, BitVec.ofNat 16 (f * 4096 + lo)⟩ := by
  intro selected
  simp only [selects, beq_iff_eq, and_F0FF, BitVec.toNat_eq, BitVec.toNat_ofNat] at selected
  have := opFamily_lt op
  have := slice_lt op 7 0
  have family : opFamily op = f := by simp only [opFamily] at *; omega
  exact ⟨i, decode_of_encode_eq (h family (by omega)) wf, ht⟩

theorem decodes_cls (strict : Bool) (op : Word) : Decodes strict op ⟨0, family0Mask strict, 0x00E0⟩ := by
  cases strict with
  | false => exact decodes_F0FF (.cls (opX op)) (by decide) (by decide) formatX_of_fields rfl rfl
  | true =>
    intro selected
    have word : op = 0x00E0 := (and_FFFF op).symm.trans (eq_of_beq selected)
    exact ⟨.cls 0, by rw [word]; decide, rfl⟩

theorem decodes_ret (strict : Bool) (op : Word) : Decodes strict op ⟨1, family0Mask strict, 0x00EE⟩ := by
  cases strict with
  | false => exact decodes_F0FF (.ret (opX op)) (by decide) (by decide) formatX_of_fields rfl rfl
  | true =>
    intro selected
    have word : op = 0x00EE := (and_FFFF op).symm.trans (eq_of_beq selected)
    exact ⟨.ret 0, by rw [word]; decide, rfl⟩

end

/-- Every row of the map stands for one kind: a word it selects is the encoding of that kind's fields of the word. -/
theorem decodes_of_mem {strict : Bool} (op : Word) : ∀ r ∈ opcodeRows strict, Decodes strict op r := by
  simp only [opcodeRows, List.forall_mem_append, List.forall_mem_cons, and_assoc]
  refine ⟨decodes_cls strict op, decodes_ret strict op, ?_, ?_, ?_, ?_, ?_, ?_, ?_, by simp, ?_, ?_, ?_, ?_, ?_, ?_, ?_, ?_,
    ?_, by simp, ?_, ?_, ?_, ?_, ?_, ?_, ?_, by simp, ?_, ?_, ?_, ?_, ?_, ?_, ?_, ?_, ?_, by simp⟩
  · exact decodes_F000 (.jp (opNnn op)) (by decide) formatA_of_fields rfl rfl
  · exact decodes_F000 (.call (opNnn op)) (by decide) formatA_of_fields rfl rfl
  · exact decodes_F000 (.seVxKk (opX op) (opKk op)) (by decide) formatXK_of_fields rfl rfl
  · exact decodes_F000 (.sneVxKk (opX op) (opKk op)) (by decide) formatXK_of_fields rfl rfl
  · exact decodes_F00F (.seVxVy (opX op) (opY op)) (by decide) (by decide) formatXYN_of_fields rfl rfl
  · exact decodes_F000 (.ldVxKk (opX op) (opKk op)) (by decide) formatXK_of_fields rfl rfl
  · exact decodes_F000 (.addVxKk (opX op) (opKk op)) (by decide) formatXK_of_fields rfl rfl
  · exact decodes_F00F (.ldVxVy (opX op) (opY op)) (by decide) (by decide) formatXYN_of_fields rfl rfl
  · exact decodes_F00F (.or (opX op) (opY op)) (by decide) (by decide) formatXYN_of_fields rfl rfl
  · exact decodes_F00F (.and (opX op) (opY op)) (by decide) (by decide) formatXYN_of_fields rfl rfl
  · exact decodes_F00F (.xor (opX op) (opY op)) (by decide) (by decide) formatXYN_of_fields rfl rfl
  · exact decodes_F00F (.addVxVy (opX op) (opY op)) (by decide) (by decide) formatXYN_of_fields rfl rfl
  · exact decodes_F00F (.sub (opX op) (opY op)) (by decide) (by decide) formatXYN_of_fields rfl rfl
  · exact decodes_F00F (.shr (opX op) (opY op)) (by decide) (by decide) formatXYN_of_fields rfl rfl
  · exact decodes_F00F (.subn (opX op) (opY op)) (by decide) (by decide) formatXYN_of_fields rfl rfl
  · exact decodes_F00F (.shl (opX op) (opY op)) (by decide) (by decide) formatXYN_of_fields rfl rfl
  · exact decodes_F00F (.sneVxVy (opX op) (opY op)) (by decide) (by decide) formatXYN_of_fields rfl rfl
  · exact decodes_F000 (.ldINnn (opNnn op)) (by decide) formatA_of_fields rfl rfl
  · exact decodes_F000 (.jpV0Nnn (opNnn op)) (by decide) formatA_of_fields rfl rfl
  · exact decodes_F000 (.rnd (opX op) (opKk op)) (by decide) formatXK_of_fields rfl rfl
  · exact decodes_F000 (.drw (opX op) (opY op) (opN op)) (by decide)
      (fun hf => formatXYN_of_fields hf (opN_val op).symm) rfl rfl
  · exact decodes_F0FF (.skp (opX op)) (by decide) (by decide) formatX_of_fields rfl rfl
  · exact decodes_F0FF (.sknp (opX op)) (by decide) (by decide) formatX_of_fields rfl rfl
  · exact decodes_F0FF (.ldVxDt (opX op)) (by decide) (by decide) formatX_of_fields rfl rfl
  · exact decodes_F0FF (.ldVxK (opX op)) (by decide) (by decide) formatX_of_fields rfl rfl
  · exact decodes_F0FF (.ldDtVx (opX op)) (by decide) (by decide) formatX_of_fields rfl rfl
  · exact decodes_F0FF (.ldStVx (opX op)) (by decide) (by decide) formatX_of_fields rfl rfl
  · exact decodes_F0FF (.addIVx (opX op)) (by decide) (by decide) formatX_of_fields rfl rfl
  · exact decodes_F0FF (.ldFVx (opX op)) (by decide) (by decide) formatX_of_fields rfl rfl
  · exact decodes_F0FF (.ldBVx (opX op)) (by decide) (by decide) formatX_of_fields rfl rfl
  · exact decodes_F0FF (.ldMemVx (opX op)) (by decide) (by decide) formatX_of_fields rfl rfl
  · exact decodes_F0FF (.ldVxMem (opX op)) (by decide) (by decide) formatX_of_fields rfl rfl

/-- No two rows have one tag (R123). -/
theorem eq_of_tag_eq {strict : Bool} : ∀ r ∈ opcodeRows strict, ∀ q ∈ opcodeRows strict, r.tag = q.tag → r = q := by
  have nodup : ((opcodeRows strict).map tag).Nodup := by cases strict <;> decide
  exact fun r hr q hq => List.inj_on_of_nodup_map nodup hr hq

/-- From tag 2 on the rows are the same under `FAMILY0_STRICT` and without it (R102). -/
theorem mem_strict_of_mem {strict : Bool} : ∀ r ∈ opcodeRows false, 2 ≤ r.tag → r ∈ opcodeRows strict := by
  cases strict <;> decide

end OpcodeRow

/-- Every instruction's word is selected by its row in the map without `FAMILY0_STRICT`. -/
theorem rowMatch (i : Instr) : Laws.RowMatch.Statement i := by
  open Laws.RowMatch in
  cases i
  · exact cls _
  · exact ret _
  · exact jp _
  · exact call _
  · exact seVxKk _ _
  · exact sneVxKk _ _
  · exact seVxVy _ _
  · exact ldVxKk _ _
  · exact addVxKk _ _
  · exact ldVxVy _ _
  · exact or _ _
  · exact and _ _
  · exact xor _ _
  · exact addVxVy _ _
  · exact sub _ _
  · exact shr _ _
  · exact subn _ _
  · exact shl _ _
  · exact sneVxVy _ _
  · exact ldINnn _
  · exact jpV0Nnn _
  · exact rnd _ _
  · exact drw _ _ _
  · exact skp _
  · exact sknp _
  · exact ldVxDt _
  · exact ldVxK _
  · exact ldDtVx _
  · exact ldStVx _
  · exact addIVx _
  · exact ldFVx _
  · exact ldBVx _
  · exact ldMemVx _
  · exact ldVxMem _

/-- Every well-formed instruction's word is selected by its row (R94, R102). -/
theorem exists_row_of_wellFormed {strict : Bool} {i : Instr} (wf : i.wellFormed strict = true) :
    ∃ r ∈ opcodeRows strict, r.selects (encode i) = true ∧ r.tag = i.tag := by
  obtain ⟨r, hr, tag, selects⟩ := rowMatch i
  by_cases two : 2 ≤ i.tag
  · exact ⟨r, OpcodeRow.mem_strict_of_mem r hr (tag ▸ two), selects, tag⟩
  · cases strict with
    | false => exact ⟨r, hr, selects, tag⟩
    | true =>
      cases i
      case cls g =>
        obtain rfl : g = 0 := (ignored_eq_zero_iff (strict := true)).1 wf rfl
        exact ⟨⟨0, 0xFFFF, 0x00E0⟩, by decide⟩
      case ret g =>
        obtain rfl : g = 0 := (ignored_eq_zero_iff (strict := true)).1 wf rfl
        exact ⟨⟨1, 0xFFFF, 0x00EE⟩, by decide⟩
      all_goals exact absurd (by simp [Instr.tag]) two

/-- Settles O3: two rows that select one word have the tag of the one instruction it decodes to. -/
theorem decoderAgreesWithTheOpcodeMap : Obligations.DecoderAgreesWithTheOpcodeMap := by
  unfold Obligations.DecoderAgreesWithTheOpcodeMap
  refine fun strict op => ⟨fun r hr q hq r_selects q_selects => ?_, fun i decoded => ?_, ?_⟩
  · obtain ⟨i, decoded, tag⟩ := OpcodeRow.decodes_of_mem op r hr r_selects
    obtain ⟨j, decoded', tag'⟩ := OpcodeRow.decodes_of_mem op q hq q_selects
    obtain rfl : i = j := Except.ok.inj (decoded.symm.trans decoded')
    exact OpcodeRow.eq_of_tag_eq r hr q hq (tag.symm.trans tag')
  · obtain ⟨rfl, wf⟩ := encode_of_decode decoded
    exact exists_row_of_wellFormed wf
  · rintro ⟨r, hr, r_selects⟩
    obtain ⟨i, decoded, -⟩ := OpcodeRow.decodes_of_mem op r hr r_selects
    exact ⟨i, decoded⟩

/-- Settles O5: each word is decoded by evaluation. -/
theorem writtenOutWordsDecode : Obligations.WrittenOutWordsDecode := by
  unfold Obligations.WrittenOutWordsDecode
  decide

end Sys2Proof
end

section
/-! PROOFS. What every instruction does, said once: the nine kinds that can end in more than one way each have an equation
per way (spec/42_control_flow.md, spec/44_index_memory.md, spec/45_display.md, spec/46_timers_keys.md), and the two
outcomes of any instruction, a raised condition (R280) or completion, are told apart. -/

namespace Sys2Proof.Machine

/-! ### The call stack -/

theorem exec_ret_of_empty (g : Fin 16) {s : State} (h : s.sp = 0) :
    exec (.ret g) s = .next (s.raise (.stackUnderflow s.pc)) := by
  simp only [exec, execRet, if_pos h]

/-- `sp - 1`, where the stack is not empty. -/
theorem toNat_pred_of_toNat_eq_succ {b : Byte} {k : Nat} (h : b.toNat = k + 1) : (b - 1).toNat = k := by
  have := b.isLt
  rw [BitVec.toNat_sub, show (1 : Byte).toNat = 1 from rfl]
  omega

theorem exec_ret_of_entry (g : Fin 16) {s : State} {k : Fin 16} (h : s.sp.toNat = k.val + 1) :
    exec (.ret g) s = .next { s with sp := s.sp - 1, pc := s.stack[k] } := by
  have entry := toNat_pred_of_toNat_eq_succ h
  have nonempty : s.sp ≠ 0 := by rintro e; simp [e] at h
  simp only [exec, execRet, if_neg nonempty, State.popPc, entry, dif_pos k.isLt, Fin.getElem_fin]

theorem exec_ret_of_above (g : Fin 16) {s : State} (h : 16 < s.sp.toNat) :
    exec (.ret g) s = .fault .noSuchStackEntry := by
  have entry := toNat_pred_of_toNat_eq_succ (b := s.sp) (k := s.sp.toNat - 1) (by omega)
  have nonempty : s.sp ≠ 0 := by rintro e; simp [e] at h
  have outside : ¬ (s.sp - 1).toNat < 16 := by omega
  simp only [exec, execRet, if_neg nonempty, State.popPc, dif_neg outside]

theorem exec_call_of_full (nnn : BitVec 12) {s : State} (h : s.sp.toNat = 16) :
    exec (.call nnn) s = .next (s.raise (.stackOverflow s.pc)) := by
  have full : s.sp = 16 := BitVec.eq_of_toNat_eq h
  simp only [exec, execCall, if_pos full]

theorem exec_call_of_room (nnn : BitVec 12) {s : State} {k : Fin 16} (h : s.sp.toNat = k.val) :
    exec (.call nnn) s =
      .next { s with stack := s.stack.set k (s.pc + 2), sp := s.sp + 1, pc := addrOf nnn } := by
  have room : s.sp ≠ 16 := by rintro e; simp [e] at h; omega
  simp only [exec, execCall, if_neg room, State.push, h, dif_pos k.isLt]

theorem exec_call_of_above (nnn : BitVec 12) {s : State} (h : 16 < s.sp.toNat) :
    exec (.call nnn) s = .fault .noSuchStackEntry := by
  have notFull : s.sp ≠ 16 := by rintro e; simp [e] at h
  have outside : ¬ s.sp.toNat < 16 := by omega
  simp only [exec, execCall, if_neg notFull, State.push, dif_neg outside]

/-! ### Memory through `I` -/

/-- The `n` bytes from `I` upward. -/
def State.bytesAtIndex (s : State) (n : Nat) : List Byte := (List.range n).map fun i => s.byteAt (s.I.toNat + i)

@[simp] theorem State.length_bytesAtIndex (s : State) (n : Nat) : (s.bytesAtIndex n).length = n := by
  simp [State.bytesAtIndex]

@[simp] theorem State.getElem_bytesAtIndex (s : State) (n i : Nat) (h : i < (s.bytesAtIndex n).length) :
    (s.bytesAtIndex n)[i] = s.byteAt (s.I.toNat + i) := by
  simp [State.bytesAtIndex]

/-- The state with `vs` stored from `I` upward. -/
def State.storeAtIndex (s : State) (vs : List Byte) : State :=
  { s with mem := Memory.writeList s.cfg.font s.mem s.I.toNat vs }

theorem State.byteAt_storeAtIndex (s : State) (vs : List Byte) (a : Nat) :
    (s.storeAtIndex vs).byteAt a =
      if h : s.I.toNat ≤ a ∧ a - s.I.toNat < vs.length then vs[a - s.I.toNat] else s.byteAt a :=
  Memory.read_writeList s.cfg.font vs s.mem s.I.toNat a

/-- A stored byte reads as it was stored. -/
theorem State.byteAt_storeAtIndex_add (s : State) (vs : List Byte) (i : Nat) (h : i < vs.length) :
    (s.storeAtIndex vs).byteAt (s.I.toNat + i) = vs[i] := by
  simp [State.byteAt_storeAtIndex, h]

/-- A byte outside the range stored to reads as before. -/
theorem State.byteAt_storeAtIndex_outside (s : State) (vs : List Byte) (a : Nat)
    (h : a < s.I.toNat ∨ s.I.toNat + vs.length ≤ a) : (s.storeAtIndex vs).byteAt a = s.byteAt a := by
  rw [State.byteAt_storeAtIndex, dif_neg (by omega)]

@[simp] theorem length_bcdDigits (a : Byte) : (bcdDigits a).length = 3 := rfl

theorem exec_ldBVx_of_inRange (x : Reg) {s : State} (h : s.I.toNat + 2 ≤ 4095) :
    exec (.ldBVx x) s = .next (s.storeAtIndex (bcdDigits (s.reg x))).advance := by
  have range := State.writeBytes_of_inRange s s.base (bcdDigits (s.reg x)) (Or.inr (by simp [State.base, memSize]; omega))
  simp only [exec, execLdBVx, range]; rfl

theorem exec_ldBVx_of_outOfRange (x : Reg) {s : State} (h : 4095 < s.I.toNat + 2) :
    exec (.ldBVx x) s = .next (s.raise (.memoryOutOfBounds s.I s.pc)) := by
  have range := State.writeBytes_of_outOfRange s s.base (bcdDigits (s.reg x)) (by simp [State.base, memSize]; omega)
  simp only [exec, execLdBVx, range]

theorem exec_ldMemVx_of_inRange {x : Reg} {s : State} (h : s.I.toNat + x.val ≤ 4095) :
    exec (.ldMemVx x) s = .next (s.storeAtIndex (s.regsUpTo x)).advance := by
  have range := State.writeBytes_of_inRange s s.base (s.regsUpTo x) (Or.inr (by simp [State.base, memSize]; omega))
  simp only [exec, execLdMemVx, range]; rfl

theorem exec_ldMemVx_of_outOfRange {x : Reg} {s : State} (h : 4095 < s.I.toNat + x.val) :
    exec (.ldMemVx x) s = .next (s.raise (.memoryOutOfBounds s.I s.pc)) := by
  have range := State.writeBytes_of_outOfRange s s.base (s.regsUpTo x) (by simp [State.base, memSize]; omega)
  simp only [exec, execLdMemVx, range]

theorem exec_ldVxMem_of_inRange {x : Reg} {s : State} (h : s.I.toNat + x.val ≤ 4095) :
    exec (.ldVxMem x) s = .next { s with V := setRegsFrom 0 s.V (s.bytesAtIndex (x.val + 1)) }.advance := by
  have range := State.readBytes_of_inRange s s.base (x.val + 1) (Or.inr (by simp [State.base, memSize]; omega))
  simp only [exec, execLdVxMem, range]; rfl

theorem exec_ldVxMem_of_outOfRange {x : Reg} {s : State} (h : 4095 < s.I.toNat + x.val) :
    exec (.ldVxMem x) s = .next (s.raise (.memoryOutOfBounds s.I s.pc)) := by
  have range := State.readBytes_of_outOfRange s s.base (x.val + 1) (by simp [State.base, memSize]; omega)
  simp only [exec, execLdVxMem, range]

theorem exec_drw_of_inRange (x y : Reg) {n : Fin 16} {s : State} (h : DrawInRange s n.val) :
    exec (.drw x y n) s = .next (s.drawSprite (s.reg x) (s.reg y) (s.bytesAtIndex n.val)).advance := by
  have range := State.readBytes_of_inRange s s.base n.val h
  simp only [exec, execDrw, range]; rfl

theorem exec_drw_of_outOfRange (x y : Reg) {n : Fin 16} {s : State} (h : ¬ DrawInRange s n.val) :
    exec (.drw x y n) s = .next (s.raise (.memoryOutOfBounds s.I s.pc)) := by
  have range := State.readBytes_of_outOfRange s s.base n.val h
  simp only [exec, execDrw, range]

/-- The range of a draw leaves memory where there is a row and the last one is above 4095 (R243). -/
theorem not_drawInRange_iff (s : State) (n : Nat) : ¬ DrawInRange s n ↔ 1 ≤ n ∧ 4095 < s.I.toNat + n - 1 := by
  unfold DrawInRange
  omega

/-! ### Keys -/

theorem State.keyDown_of_lt (s : State) {v : Byte} {k : Fin 16} (h : v.toNat = k.val) : s.keyDown v = some s.keys[k] := by
  simp only [State.keyDown, h, dif_pos k.isLt, Fin.getElem_fin]

theorem State.keyDown_of_above (s : State) {v : Byte} (h : 15 < v.toNat) : s.keyDown v = none := by
  rw [State.keyDown, dif_neg (by omega)]

section
variable {x : Reg} {s : State}

theorem exec_skp_of_key {k : Fin 16} (h : (s.reg x).toNat = k.val) : exec (.skp x) s = .next (s.skipIf s.keys[k]) := by
  simp only [exec, execSkp, s.keyDown_of_lt h]

theorem exec_skp_of_above (h : 15 < (s.reg x).toNat) :
    exec (.skp x) s = .next (s.raise (.keyIndexOutOfRange (s.reg x) s.pc)) := by
  simp only [exec, execSkp, s.keyDown_of_above h]

theorem exec_sknp_of_key {k : Fin 16} (h : (s.reg x).toNat = k.val) : exec (.sknp x) s = .next (s.skipIf !s.keys[k]) := by
  simp only [exec, execSknp, s.keyDown_of_lt h]

theorem exec_sknp_of_above (h : 15 < (s.reg x).toNat) :
    exec (.sknp x) s = .next (s.raise (.keyIndexOutOfRange (s.reg x) s.pc)) := by
  simp only [exec, execSknp, s.keyDown_of_above h]

/-- The scan finds the lowest key that is down (R264). -/
theorem State.lowestKey_of_down {k : Fin 16} (down : s.keys[k] = true)
    (lowest : ∀ j : Fin 16, j < k → s.keys[j] = false) : s.lowestKey = some (BitVec.ofNat 8 k.val) := by
  have scan : firstTrue 0 s.keys.toList = some k.val := by
    rw [firstTrue_eq_some]
    refine ⟨Nat.zero_le _, by simpa using down, fun j _ hj => ?_⟩
    have := lowest ⟨j, by omega⟩ hj
    simpa [show j < 16 by omega] using this
  rw [State.lowestKey, scan]

/-- The scan finds nothing where no key is down (R264). -/
theorem State.lowestKey_of_up (up : ∀ j : Fin 16, s.keys[j] = false) : s.lowestKey = none := by
  have scan : firstTrue 0 s.keys.toList = none := by
    rw [firstTrue_eq_none, Vector.mem_toList_iff, Vector.mem_iff_getElem]
    rintro ⟨j, hj, down⟩
    exact Bool.noConfusion (down.symm.trans (up ⟨j, hj⟩))
  rw [State.lowestKey, scan]

theorem exec_ldVxK_of_down {k : Fin 16} (down : s.keys[k] = true) (lowest : ∀ j : Fin 16, j < k → s.keys[j] = false) :
    exec (.ldVxK x) s = .next (s.setReg x (BitVec.ofNat 8 k.val)).advance := by
  simp only [exec, execLdVxK, State.lowestKey_of_down down lowest]

theorem exec_ldVxK_of_up (up : ∀ j : Fin 16, s.keys[j] = false) : exec (.ldVxK x) s = .next s := by
  simp only [exec, execLdVxK, State.lowestKey_of_up up]

/-- A latch with a key down has a lowest one. -/
theorem exists_lowest_down (h : ¬ ∀ j : Fin 16, s.keys[j] = false) :
    ∃ k : Fin 16, s.keys[k] = true ∧ ∀ j : Fin 16, j < k → s.keys[j] = false := by
  simp only [not_forall, Bool.not_eq_false] at h
  exact ⟨Fin.find _ h, Fin.find_spec h, fun j hj => by simpa using Fin.find_min h hj⟩

end

/-! ### Raising and completing -/

/-- What the nine kinds that can end in more than one way leave when they raise nothing; the other kinds have one way. -/
def Completes (i : Instr) (s t : State) : Prop :=
  match i with
  | .ret _ => ∃ k : Fin 16, s.sp.toNat = k.val + 1 ∧ t = { s with sp := s.sp - 1, pc := s.stack[k] }
  | .call nnn => ∃ k : Fin 16, s.sp.toNat = k.val ∧
      t = { s with stack := s.stack.set k (s.pc + 2), sp := s.sp + 1, pc := addrOf nnn }
  | .drw x y n => DrawInRange s n.val ∧ t = (s.drawSprite (s.reg x) (s.reg y) (s.bytesAtIndex n.val)).advance
  | .skp x => ∃ k : Fin 16, (s.reg x).toNat = k.val ∧ t = s.skipIf s.keys[k]
  | .sknp x => ∃ k : Fin 16, (s.reg x).toNat = k.val ∧ t = s.skipIf !s.keys[k]
  | .ldVxK x =>
      (∃ k : Fin 16, s.keys[k] = true ∧ (∀ j : Fin 16, j < k → s.keys[j] = false) ∧
        t = (s.setReg x (BitVec.ofNat 8 k.val)).advance) ∨
      ((∀ j : Fin 16, s.keys[j] = false) ∧ t = s)
  | .ldBVx x => s.I.toNat + 2 ≤ 4095 ∧ t = (s.storeAtIndex (bcdDigits (s.reg x))).advance
  | .ldMemVx x => s.I.toNat + x.val ≤ 4095 ∧ t = (s.storeAtIndex (s.regsUpTo x)).advance
  | .ldVxMem x => s.I.toNat + x.val ≤ 4095 ∧ t = { s with V := setRegsFrom 0 s.V (s.bytesAtIndex (x.val + 1)) }.advance
  | i => exec i s = .next t

section
variable {i : Instr} {s t : State}

/-- Whether an instruction raises a condition depends on `pc`, `sp`, `I` and, for the key skips, their register alone. -/
theorem ExecutionRaises.congr {c : FatalCondition} (h : ExecutionRaises i s c) (hpc : t.pc = s.pc)
    (hsp : t.sp = s.sp) (hI : t.I = s.I)
    (hreg : ∀ x, i = .skp x ∨ i = .sknp x → t.reg x = s.reg x) : ExecutionRaises i t c := by
  cases c
  case unsupportedOpcode => exact h
  case stackOverflow | stackUnderflow => simpa only [ExecutionRaises, hpc, hsp] using h
  case memoryOutOfBounds => simpa only [ExecutionRaises, hpc, hI] using h
  case keyIndexOutOfRange =>
    obtain ⟨rfl, x, kind, rfl, above⟩ := h
    exact ⟨hpc.symm, x, kind, (hreg x kind).symm, above⟩

/-- An instruction that raises a condition changes `fault` and nothing else (R280, R290). -/
theorem exec_of_raises {c : FatalCondition} (h : ExecutionRaises i s c) : exec i s = .next (s.raise c) := by
  cases c
  case unsupportedOpcode => exact h.elim
  case stackOverflow => obtain ⟨rfl, full, nnn, rfl⟩ := h; exact exec_call_of_full nnn full
  case stackUnderflow => obtain ⟨rfl, empty, g, rfl⟩ := h; exact exec_ret_of_empty g (BitVec.eq_of_toNat_eq empty)
  case memoryOutOfBounds =>
    obtain ⟨rfl, rfl, ⟨x, y, n, rfl, range⟩ | ⟨x, rfl, range⟩ | ⟨x, rfl | rfl, range⟩⟩ := h
    · exact exec_drw_of_outOfRange x y ((not_drawInRange_iff s n.val).2 range)
    · exact exec_ldBVx_of_outOfRange x range
    · exact exec_ldMemVx_of_outOfRange range
    · exact exec_ldVxMem_of_outOfRange range
  case keyIndexOutOfRange =>
    obtain ⟨rfl, x, rfl | rfl, rfl, above⟩ := h
    · exact exec_skp_of_above above
    · exact exec_sknp_of_above above

theorem exec_of_completes (h : Completes i s t) : exec i s = .next t := by
  cases i
  case ret g => obtain ⟨k, entry, rfl⟩ := h; exact exec_ret_of_entry g entry
  case call nnn => obtain ⟨k, room, rfl⟩ := h; exact exec_call_of_room nnn room
  case drw x y n => obtain ⟨range, rfl⟩ := h; exact exec_drw_of_inRange x y range
  case skp x => obtain ⟨k, key, rfl⟩ := h; exact exec_skp_of_key key
  case sknp x => obtain ⟨k, key, rfl⟩ := h; exact exec_sknp_of_key key
  case ldVxK x =>
    obtain ⟨k, down, lowest, rfl⟩ | ⟨up, rfl⟩ := h
    · exact exec_ldVxK_of_down down lowest
    · exact exec_ldVxK_of_up up
  case ldBVx x => obtain ⟨range, rfl⟩ := h; exact exec_ldBVx_of_inRange x range
  case ldMemVx x => obtain ⟨range, rfl⟩ := h; exact exec_ldMemVx_of_inRange range
  case ldVxMem x => obtain ⟨range, rfl⟩ := h; exact exec_ldVxMem_of_inRange range
  all_goals exact h

/-- The stack pointer names the empty stack, an entry, or nothing the stack has. -/
theorem stackPointer_cases (b : Byte) : b = 0 ∨ (∃ k : Fin 16, b.toNat = k.val + 1) ∨ 16 < b.toNat := by
  by_cases empty : b = 0
  · exact Or.inl empty
  · have : b.toNat ≠ 0 := fun e => empty (BitVec.eq_of_toNat_eq e)
    by_cases above : 16 < b.toNat
    · exact Or.inr (Or.inr above)
    · exact Or.inr (Or.inl ⟨⟨b.toNat - 1, by omega⟩, by simp; omega⟩)

/-- An instruction that answers a next state raised a condition of the table (R280) or completed. -/
theorem exec_next (h : exec i s = .next t) : (∃ c, ExecutionRaises i s c ∧ t = s.raise c) ∨ Completes i s t := by
  have raised {c} (hc : ExecutionRaises i s c) : ∃ c, ExecutionRaises i s c ∧ t = s.raise c :=
    ⟨c, hc, Host.Outcome.next.inj (h.symm.trans (exec_of_raises hc))⟩
  have completed {u} (hu : Completes i s u) : Completes i s t :=
    Host.Outcome.next.inj ((exec_of_completes hu).symm.trans h) ▸ hu
  cases i
  case ret g =>
    obtain empty | ⟨k, entry⟩ | above := stackPointer_cases s.sp
    · exact Or.inl (raised (c := .stackUnderflow s.pc) ⟨rfl, by simp [empty], g, rfl⟩)
    · exact Or.inr (completed ⟨k, entry, rfl⟩)
    · cases h.symm.trans (exec_ret_of_above g above)
  case call nnn =>
    obtain room | full | above := Nat.lt_trichotomy s.sp.toNat 16
    · exact Or.inr (completed ⟨⟨s.sp.toNat, room⟩, rfl, rfl⟩)
    · exact Or.inl (raised (c := .stackOverflow s.pc) ⟨rfl, full, nnn, rfl⟩)
    · cases h.symm.trans (exec_call_of_above nnn above)
  case drw x y n =>
    by_cases range : DrawInRange s n.val
    · exact Or.inr (completed ⟨range, rfl⟩)
    · exact Or.inl (raised (c := .memoryOutOfBounds s.I s.pc)
        ⟨rfl, rfl, Or.inl ⟨x, y, n, rfl, (not_drawInRange_iff s n.val).1 range⟩⟩)
  case skp x =>
    by_cases key : (s.reg x).toNat < 16
    · exact Or.inr (completed ⟨⟨_, key⟩, rfl, rfl⟩)
    · exact Or.inl (raised (c := .keyIndexOutOfRange (s.reg x) s.pc) ⟨rfl, x, Or.inl rfl, rfl, by omega⟩)
  case sknp x =>
    by_cases key : (s.reg x).toNat < 16
    · exact Or.inr (completed ⟨⟨_, key⟩, rfl, rfl⟩)
    · exact Or.inl (raised (c := .keyIndexOutOfRange (s.reg x) s.pc) ⟨rfl, x, Or.inr rfl, rfl, by omega⟩)
  case ldVxK x =>
    by_cases up : ∀ j : Fin 16, s.keys[j] = false
    · exact Or.inr (completed (Or.inr ⟨up, rfl⟩))
    · obtain ⟨k, down, lowest⟩ := exists_lowest_down up
      exact Or.inr (completed (Or.inl ⟨k, down, lowest, rfl⟩))
  case ldBVx x =>
    by_cases range : s.I.toNat + 2 ≤ 4095
    · exact Or.inr (completed ⟨range, rfl⟩)
    · exact Or.inl (raised (c := .memoryOutOfBounds s.I s.pc) ⟨rfl, rfl, Or.inr (Or.inl ⟨x, rfl, by omega⟩)⟩)
  case ldMemVx x =>
    by_cases range : s.I.toNat + x.val ≤ 4095
    · exact Or.inr (completed ⟨range, rfl⟩)
    · exact Or.inl (raised (c := .memoryOutOfBounds s.I s.pc)
        ⟨rfl, rfl, Or.inr (Or.inr ⟨x, Or.inl rfl, by omega⟩)⟩)
  case ldVxMem x =>
    by_cases range : s.I.toNat + x.val ≤ 4095
    · exact Or.inr (completed ⟨range, rfl⟩)
    · exact Or.inl (raised (c := .memoryOutOfBounds s.I s.pc)
        ⟨rfl, rfl, Or.inr (Or.inr ⟨x, Or.inr rfl, by omega⟩)⟩)
  all_goals exact Or.inr h

/-- What a completed instruction never touches: `fault` first of all. -/
theorem Completes.fault_eq (h : Completes i s t) : t.fault = s.fault := by
  cases i
  case ret g | call nnn | skp x | sknp x => obtain ⟨_, -, rfl⟩ := h; rfl
  case ldVxK x => obtain ⟨_, -, -, rfl⟩ | ⟨-, rfl⟩ := h <;> rfl
  case drw x y n | ldBVx x | ldMemVx x | ldVxMem x => obtain ⟨-, rfl⟩ := h; rfl
  all_goals cases h; rfl

end

end Sys2Proof.Machine
end

section
/-! PROOFS. What every instruction leaves alone, and what it does to `pc` and the registers (spec/10_state.md R23,
spec/20_memory.md section 3, spec/41_cycle.md R155, spec/45_display.md section 1). -/

namespace Sys2Proof.Machine

/-! ### Frames over all kinds -/

/-- The elements of the state, each with the kinds that may change it while an instruction executes. -/
structure ChangedByTheirKinds (i : Instr) (s t : State) : Prop where
  mem : (∀ x, i ≠ .ldBVx x) → (∀ x, i ≠ .ldMemVx x) → t.mem = s.mem
  fb : (∀ g, i ≠ .cls g) → (∀ x y n, i ≠ .drw x y n) → t.fb = s.fb
  stack : (∀ n, i ≠ .call n) → (∀ g, i ≠ .ret g) → t.sp = s.sp ∧ t.stack = s.stack
  I : (∀ n, i ≠ .ldINnn n) → (∀ x, i ≠ .addIVx x) → (∀ x, i ≠ .ldFVx x) → t.I = s.I
  dt : (∀ x, i ≠ .ldDtVx x) → t.dt = s.dt
  st : (∀ x, i ≠ .ldStVx x) → t.st = s.st
  cfg : t.cfg = s.cfg
  acc : t.acc = s.acc

section
variable {i : Instr} {s t : State}

theorem Completes.changed (h : Completes i s t) : ChangedByTheirKinds i s t := by
  cases i
  case ret g | call nnn | skp x | sknp x => obtain ⟨_, -, rfl⟩ := h; constructor <;> simp
  case ldVxK x => obtain ⟨_, -, -, rfl⟩ | ⟨-, rfl⟩ := h <;> constructor <;> simp
  case drw x y n | ldBVx x | ldMemVx x | ldVxMem x =>
    obtain ⟨-, rfl⟩ := h; constructor <;> simp [State.storeAtIndex]
  all_goals cases h; constructor <;> simp

theorem exec_changed (h : exec i s = .next t) : ChangedByTheirKinds i s t := by
  obtain ⟨c, -, rfl⟩ | completed := exec_next h
  · constructor <;> simp
  · exact completed.changed

end

/-- Settles O24. -/
theorem memoryIsWrittenByTheTwoStoresAlone : Obligations.MemoryIsWrittenByTheTwoStoresAlone := by
  unfold Obligations.MemoryIsWrittenByTheTwoStoresAlone
  intro i s t h notLdB notLdMem
  have changed := exec_changed h
  exact State.byteAt_congr changed.cfg (changed.mem notLdB notLdMem)

/-- Settles O25. -/
theorem framebufferIsChangedByClsAndDrwAlone : Obligations.FramebufferIsChangedByClsAndDrwAlone := by
  unfold Obligations.FramebufferIsChangedByClsAndDrwAlone
  exact fun i s t h => (exec_changed h).fb

/-- Settles O26. -/
theorem specialRegistersAreChangedByTheirKindsAlone : Obligations.SpecialRegistersAreChangedByTheirKindsAlone := by
  unfold Obligations.SpecialRegistersAreChangedByTheirKindsAlone
  intro i s t h
  obtain ⟨_, _, stack, I, dt, st, _, acc⟩ := exec_changed h
  exact ⟨stack, I, dt, st, acc⟩

/-! ### The registers an instruction writes -/

theorem State.reg_setReg_self (s : State) (x : Reg) (v : Byte) : (s.setReg x v).reg x = v := by
  rw [State.reg_setReg, if_pos rfl]

theorem State.reg_setReg_of_ne {s : State} {x r : Reg} {v : Byte} (h : r ≠ x) : (s.setReg x v).reg r = s.reg r := by
  rw [State.reg_setReg, if_neg h]

theorem State.reg_setRegFlag_VF (s : State) (x : Reg) (v f : Byte) : (s.setRegFlag x v f).reg VF = f := by
  rw [State.reg_setRegFlag, if_pos rfl]

theorem State.reg_setRegFlag_self (s : State) {x : Reg} (v f : Byte) (h : x ≠ VF) : (s.setRegFlag x v f).reg x = v := by
  rw [State.reg_setRegFlag, if_neg h, if_pos rfl]

theorem State.reg_setRegFlag_of_ne {s : State} {x r : Reg} {v f : Byte} (h : r ≠ x) (hf : r ≠ VF) :
    (s.setRegFlag x v f).reg r = s.reg r := by
  rw [State.reg_setRegFlag, if_neg hf, if_neg h]

/-- A draw writes the collision to `VF` and no other register. -/
theorem State.reg_drawSprite_of_ne {s : State} {vx vy : Byte} {rows : List Byte} {r : Reg} (h : r ≠ VF) :
    (s.drawSprite vx vy rows).reg r = s.reg r :=
  State.reg_setReg_of_ne h

theorem State.reg_drawSprite_VF (s : State) (vx vy : Byte) (rows : List Byte) :
    (s.drawSprite vx vy rows).reg VF =
      flagByte (xorCells (spriteCells s.cfg.displayW s.cfg.displayH vx.toNat vy.toNat 0 rows) s.fb).2 :=
  State.reg_setReg_self s VF _

/-- A block load of `x + 1` bytes gives `V[r]` the byte at `I + r`, for `r` up to `x`. -/
theorem State.reg_loadAtIndex_of_le (s : State) {x r : Reg} (h : r ≤ x) :
    ({ s with V := setRegsFrom 0 s.V (s.bytesAtIndex (x.val + 1)) } : State).reg r = s.byteAt (s.I.toNat + r.val) := by
  have hr : r.val < x.val + 1 := Nat.lt_succ_of_le h
  simp [State.reg, getElem_setRegsFrom, hr]

/-- A block load of `x + 1` bytes leaves the registers above `x` alone. -/
theorem State.reg_loadAtIndex_of_lt (s : State) {x r : Reg} (h : x < r) :
    ({ s with V := setRegsFrom 0 s.V (s.bytesAtIndex (x.val + 1)) } : State).reg r = s.reg r := by
  have hr : ¬ r.val < x.val + 1 := Nat.not_lt.2 h
  simp [State.reg, getElem_setRegsFrom, hr]

/-- A register that the matrix does not give a completed instruction is as before (R23). -/
theorem Completes.reg_eq {i : Instr} {s t : State} {r : Reg} (h : Completes i s t) (hr : ¬ WritesReg i r) :
    t.reg r = s.reg r := by
  cases i
  case ret g | call nnn | skp x | sknp x => obtain ⟨_, -, rfl⟩ := h; rfl
  case ldBVx x | ldMemVx x => obtain ⟨-, rfl⟩ := h; rfl
  case drw x y n => obtain ⟨-, rfl⟩ := h; exact State.reg_drawSprite_of_ne hr
  case ldVxMem x => obtain ⟨-, rfl⟩ := h; exact State.reg_loadAtIndex_of_lt s (not_le.1 hr)
  case ldVxK x =>
    obtain ⟨_, -, -, rfl⟩ | ⟨-, rfl⟩ := h
    · exact State.reg_setReg_of_ne hr
    · rfl
  case addVxVy x y | sub x y | subn x y | shr x y | shl x y =>
    cases h
    exact State.reg_setRegFlag_of_ne (fun e => hr (Or.inl e)) (fun e => hr (Or.inr e))
  case ldVxKk x kk | addVxKk x kk | ldVxVy x y | or x y | and x y | xor x y | rnd x kk | ldVxDt x =>
    cases h
    exact State.reg_setReg_of_ne hr
  all_goals cases h; rfl

/-- Settles O21. -/
theorem registersWrittenAsTheMatrixSays : Obligations.RegistersWrittenAsTheMatrixSays := by
  unfold Obligations.RegistersWrittenAsTheMatrixSays
  intro i s t r h hr
  obtain ⟨c, -, rfl⟩ | completed := exec_next h
  · rfl
  · exact completed.reg_eq hr

/-! ### Flags -/

theorem flagByte_zero_or_one (b : Bool) : flagByte b = 0 ∨ flagByte b = 1 := by
  cases b <;> simp [flagByte]

theorem ofNat_zero_or_one {n : Nat} (h : n < 2) : BitVec.ofNat 8 n = 0 ∨ BitVec.ofNat 8 n = 1 := by
  obtain rfl | rfl : n = 0 ∨ n = 1 := by omega
  · exact Or.inl rfl
  · exact Or.inr rfl

theorem shiftRightFlag_zero_or_one (source : ShiftFlagSource) (a : Byte) :
    shiftRightFlag source a = 0 ∨ shiftRightFlag source a = 1 := by
  cases source <;> exact ofNat_zero_or_one (Nat.mod_lt _ (by decide))

theorem shiftLeftFlag_zero_or_one (source : ShiftFlagSource) (a : Byte) :
    shiftLeftFlag source a = 0 ∨ shiftLeftFlag source a = 1 := by
  cases source <;> exact ofNat_zero_or_one (Nat.div_lt_of_lt_mul (BitVec.isLt _))

/-- The flag lands last, so `VF` holds it wherever the result went. -/
theorem State.setRegFlag_VF_zero_or_one (s : State) (x : Reg) (v : Byte) {f : Byte} (h : f = 0 ∨ f = 1) :
    (s.setRegFlag x v f).advance.reg VF = 0 ∨ (s.setRegFlag x v f).advance.reg VF = 1 := by
  rwa [State.reg_advance, State.reg_setRegFlag_VF]

/-- Settles O23. -/
theorem flagWritingKindsLeaveZeroOrOne : Obligations.FlagWritingKindsLeaveZeroOrOne := by
  unfold Obligations.FlagWritingKindsLeaveZeroOrOne
  intro i s t x y n running h completes kind
  simp only [List.mem_cons, List.not_mem_nil, or_false] at kind
  obtain rfl | rfl | rfl | rfl | rfl | rfl := kind
  · cases h; exact State.setRegFlag_VF_zero_or_one s x _ (flagByte_zero_or_one _)
  · cases h; exact State.setRegFlag_VF_zero_or_one s x _ (flagByte_zero_or_one _)
  · cases h; exact State.setRegFlag_VF_zero_or_one s x _ (flagByte_zero_or_one _)
  · cases h; exact State.setRegFlag_VF_zero_or_one s x _ (shiftRightFlag_zero_or_one _ _)
  · cases h; exact State.setRegFlag_VF_zero_or_one s x _ (shiftLeftFlag_zero_or_one _ _)
  · obtain ⟨c, -, rfl⟩ | ⟨-, rfl⟩ := exec_next h
    · cases completes
    · rw [State.reg_advance, State.reg_drawSprite_VF]
      exact flagByte_zero_or_one _

/-! ### The program counter -/

section
variable {s : State}

theorem State.skipIf_pc_beq {α : Type} [DecidableEq α] (a b : α) :
    (s.skipIf (a == b)).pc = if a = b then s.pc + 4 else s.pc + 2 := by
  by_cases h : a = b <;> simp [h]

theorem State.skipIf_pc_bne {α : Type} [DecidableEq α] (a b : α) :
    (s.skipIf (a != b)).pc = if a = b then s.pc + 2 else s.pc + 4 := by
  by_cases h : a = b <;> simp [h]

/-- `nnn + V[0]` stays below 65536, so the sum is not reduced (decision D20). -/
theorem toNat_addrOf_add_wide (nnn : BitVec 12) (v : Byte) : (addrOf nnn + wide v).toNat = nnn.toNat + v.toNat := by
  have := nnn.isLt
  have := v.isLt
  rw [BitVec.toNat_add, addrOf_toNat, wide_toNat]
  omega

end

theorem Completes.pcMoves {i : Instr} {s t : State} (h : Completes i s t) : PcMoves i s t := by
  cases i
  case ret g => obtain ⟨k, entry, rfl⟩ := h; exact ⟨k, entry, rfl⟩
  case call nnn => obtain ⟨k, -, rfl⟩ := h; exact addrOf_toNat nnn
  case jp nnn => cases h; exact addrOf_toNat nnn
  case jpV0Nnn nnn => cases h; exact toNat_addrOf_add_wide nnn _
  case seVxKk x kk | seVxVy x y => cases h; exact State.skipIf_pc_beq _ _
  case sneVxKk x kk | sneVxVy x y => cases h; exact State.skipIf_pc_bne _ _
  case skp x => obtain ⟨k, key, rfl⟩ := h; exact ⟨k, key, by cases s.keys[k] <;> rfl⟩
  case sknp x => obtain ⟨k, key, rfl⟩ := h; exact ⟨k, key, by cases s.keys[k] <;> rfl⟩
  case ldVxK x =>
    obtain ⟨k, down, -, rfl⟩ | ⟨up, rfl⟩ := h
    · exact ⟨fun _ => rfl, fun up => Bool.noConfusion (down.symm.trans (up k))⟩
    · exact ⟨fun ⟨k, down⟩ => Bool.noConfusion (down.symm.trans (up k)), fun _ => rfl⟩
  case drw x y n | ldBVx x | ldMemVx x | ldVxMem x => obtain ⟨-, rfl⟩ := h; rfl
  all_goals cases h; rfl

/-- A skip does not read memory. -/
theorem exec_skip_setMem {i : Instr} {s t : State} (m : Memory) (skip : IsSkip i) (h : exec i s = .next t) :
    exec i { s with mem := m } = .next { t with mem := m } := by
  cases i
  case seVxKk | sneVxKk | seVxVy | sneVxVy => cases h; rfl
  case skp x | sknp x =>
    obtain ⟨c, raises, rfl⟩ | ⟨k, key, rfl⟩ := exec_next h
    · exact exec_of_raises (s := { s with mem := m }) (raises.congr rfl rfl rfl fun _ _ => rfl)
    · exact exec_of_completes (s := { s with mem := m }) ⟨k, key, rfl⟩
  all_goals exact skip.elim

/-- Settles O20. -/
theorem pcMovesAsTheTableSays : Obligations.PcMovesAsTheTableSays := by
  unfold Obligations.PcMovesAsTheTableSays
  refine ⟨fun i s t running h completes => ?_, fun i s t m => exec_skip_setMem m⟩
  obtain ⟨c, -, rfl⟩ | completed := exec_next h
  · cases completes
  · exact completed.pcMoves

end Sys2Proof.Machine
end

section
/-! PROOFS. The invariant: it holds at reset, every step keeps it, and no state that has it is stuck (spec/10_state.md
R20, R27 to R29, spec/93_implementation_defined.md section 2). -/

namespace Sys2Proof.Machine

/-- The invariant depends on the parameters, memory, framebuffer, call stack and `pc` alone. -/
theorem State.Inv.congr {s t : State} (h : s.Inv) (hcfg : t.cfg = s.cfg) (hmem : t.mem = s.mem) (hfb : t.fb = s.fb)
    (hsp : t.sp = s.sp) (hstack : t.stack = s.stack) (hpc : t.pc = s.pc) : t.Inv := by
  obtain ⟨cfg, mem, fb, sp, stack, pc⟩ := h
  constructor <;> simp only [hcfg, hmem, hfb, hsp, hstack, hpc] <;> assumption

theorem State.Inv.arrive {s : State} (h : s.Inv) : s.arrive.Inv := h.congr rfl rfl rfl rfl rfl rfl

theorem State.Inv.raise {s : State} (h : s.Inv) (c : FatalCondition) : (s.raise c).Inv := h.congr rfl rfl rfl rfl rfl rfl

theorem State.Inv.endCycle {s : State} (h : s.Inv) : s.endCycle.Inv := h.congr rfl rfl rfl rfl rfl rfl

theorem State.Inv.afterExecute {s : State} (h : s.Inv) : s.afterExecute.Inv :=
  h.congr (by simp) (by simp) (by simp) (by simp) (by simp) (by simp)

/-- From an address that can be fetched `pc` moves on without wrapping. -/
theorem toNat_pc_add {pc : Word} (h : pc.toNat ≤ 4094) :
    (pc + 2).toNat = pc.toNat + 2 ∧ (pc + 4).toNat = pc.toNat + 4 := by
  simp only [BitVec.toNat_add, show (2 : Word).toNat = 2 from rfl, show (4 : Word).toNat = 4 from rfl]
  omega

section
variable {i : Instr} {s t : State}

/-- R27: of all the targets the farthest is `0xFFF + 0xFF`, that of `JP V0`. -/
theorem PcMoves.pc_le (inv : s.Inv) (fetched : s.pc.toNat ≤ 4094) (h : PcMoves i s t) : t.pc.toNat ≤ 4350 := by
  obtain ⟨two, four⟩ := toNat_pc_add fetched
  have skips {p : Prop} [Decidable p] {a b : Word} (hp : t.pc = if p then a else b) (ha : a.toNat ≤ 4350)
      (hb : b.toNat ≤ 4350) : t.pc.toNat ≤ 4350 := by
    rw [hp]; split <;> assumption
  cases i
  case jp nnn | call nnn => rw [show t.pc.toNat = nnn.toNat from h]; omega
  case jpV0Nnn nnn =>
    have := (s.reg 0).isLt
    rw [show t.pc.toNat = nnn.toNat + (s.reg 0).toNat from h]
    omega
  case ret g =>
    obtain ⟨k, -, popped⟩ := h
    have := inv.stack k
    rw [popped]
    omega
  case seVxKk | sneVxKk | seVxVy | sneVxVy => exact skips h (by omega) (by omega)
  case skp x | sknp x => obtain ⟨k, -, moved⟩ := h; exact skips moved (by omega) (by omega)
  case ldVxK x =>
    by_cases up : ∀ k : Fin 16, s.keys[k] = false
    · rw [h.2 up]; omega
    · obtain ⟨k, down, -⟩ := exists_lowest_down up
      rw [h.1 ⟨k, down⟩]; omega
  all_goals rw [show t.pc = s.pc + 2 from h]; omega

/-- Memory stays canonical: a store is checked whole before it is done (R66). -/
theorem Completes.mem_wf (inv : s.Inv) (h : Completes i s t) : Memory.wf t.cfg.font t.mem := by
  have stored (vs : List Byte) (range : s.I.toNat + vs.length ≤ memSize) :
      Memory.wf s.cfg.font (s.storeAtIndex vs).mem :=
    Memory.wf_writeList _ vs s.mem _ inv.mem range
  have changed := h.changed
  rw [changed.cfg]
  cases i
  case ldBVx x => obtain ⟨range, rfl⟩ := h; exact stored _ (by simp [memSize]; omega)
  case ldMemVx x => obtain ⟨range, rfl⟩ := h; exact stored _ (by simp [memSize]; omega)
  all_goals rw [changed.mem (by simp) (by simp)]; exact inv.mem

/-- The framebuffer stays canonical: the cells of a sprite are cells of the display (R243). -/
theorem Completes.fb_wf (inv : s.Inv) (h : Completes i s t) : Framebuffer.wf t.cfg.cells t.fb := by
  have changed := h.changed
  rw [changed.cfg]
  cases i
  case cls g => cases h; simp [Framebuffer.wf]
  case drw x y n =>
    obtain ⟨-, rfl⟩ := h
    have legal := inv.cfg
    simp only [Config.wf, Bool.and_eq_true, decide_eq_true_eq] at legal
    exact xorCells_wf _ _ _ inv.fb fun k hk => spriteCells_lt _ _ _ _ _ _ k (by omega) (by omega) hk
  all_goals rw [changed.fb (by simp) (by simp)]; exact inv.fb

/-- The stack stays bounded: `CALL` pushes `pc + 2` where there is room (R28, R29). -/
theorem Completes.stack_le (inv : s.Inv) (fetched : s.pc.toNat ≤ 4094) (h : Completes i s t) :
    t.sp.toNat ≤ 16 ∧ ∀ k : Fin 16, t.stack[k].toNat ≤ 4096 := by
  have changed := h.changed
  cases i
  case ret g =>
    obtain ⟨k, entry, rfl⟩ := h
    exact ⟨by rw [toNat_pred_of_toNat_eq_succ entry]; omega, inv.stack⟩
  case call nnn =>
    obtain ⟨k, room, rfl⟩ := h
    refine ⟨by simp [room]; omega, fun j => ?_⟩
    obtain ⟨two, -⟩ := toNat_pc_add fetched
    have := inv.stack j
    simp only [Fin.getElem_fin, Vector.getElem_set] at *
    split <;> omega
  all_goals
    obtain ⟨sp, stack⟩ := changed.stack (by simp) (by simp)
    rw [sp, stack]
    exact ⟨inv.sp, inv.stack⟩

theorem exec_keeps_inv (inv : s.Inv) (fetched : s.pc.toNat ≤ 4094) (h : exec i s = .next t) : t.Inv := by
  obtain ⟨c, -, rfl⟩ | completed := exec_next h
  · exact inv.raise c
  · obtain ⟨sp, stack⟩ := completed.stack_le inv fetched
    exact {
      cfg := completed.changed.cfg ▸ inv.cfg
      mem := completed.mem_wf inv
      fb := completed.fb_wf inv
      sp := sp
      stack := stack
      pc := completed.pcMoves.pc_le inv fetched }

end

/-- Settles O14: of the four ways a step goes, three change nothing the invariant speaks of, and the fourth executes an
instruction from an address that was fetched. -/
theorem stepKeepsTheInvariant : Obligations.StepKeepsTheInvariant := by
  unfold Obligations.StepKeepsTheInvariant
  intro s t inv h
  obtain ⟨c, -, rfl⟩ | ⟨-, -, rfl⟩ | ⟨op, e, -, -, -, rfl⟩ | ⟨op, i, u, -, fetched, -, executed, rfl⟩ := step_next_cases h
  · exact inv.arrive.endCycle
  · exact (inv.arrive.raise _).endCycle
  · exact (inv.arrive.raise _).endCycle
  · exact (exec_keeps_inv inv.arrive (State.fetch_eq_some fetched).1 executed).afterExecute

/-- The machine with legal parameters and no program has the invariant. -/
theorem State.inv_resetWith {c : Config} (h : c.wf = true) : (State.resetWith c).Inv where
  cfg := h
  mem := Memory.wf_nil _
  fb := by simp [Framebuffer.wf]
  sp := by simp
  stack k := by simp
  pc := by simp

/-- Settles O15. -/
theorem resetHasTheInvariant : Obligations.ResetHasTheInvariant := by
  unfold Obligations.ResetHasTheInvariant
  exact State.inv_resetWith (by decide)

/-- The step stops only where the instruction it executes does. -/
theorem step_fault_cases {s : State} {r : Fault} (h : step s = .fault r) : 16 < s.sp.toNat := by
  unfold step State.runCycle at h
  split at h
  · cases h
  · split at h
    · cases h
    · split at h
      · cases h
      · unfold finishCycle at h
        split at h
        · cases h
        · next stopped => exact exec_fault_cases (s := s.arrive) stopped
        · cases h

/-- Settles O16: the model's own stop needs `sp` above 16. -/
theorem stepCompletesUnderTheInvariant : Obligations.StepCompletesUnderTheInvariant := by
  unfold Obligations.StepCompletesUnderTheInvariant
  intro s inv
  cases outcome : step s with
  | next t => exact ⟨t, rfl⟩
  | refused r => exact absurd outcome (step_not_refused s r)
  | fault r => exact absurd (step_fault_cases outcome) (Nat.not_lt.2 inv.sp)

/-- Every way a step goes keeps the parameters and the latch the host brought. -/
theorem step_cfg_keys {s t : State} (h : step s = .next t) :
    t.cfg = s.cfg ∧ t.keys = s.cycleInput.keys.getD s.keys := by
  obtain ⟨c, -, rfl⟩ | ⟨-, -, rfl⟩ | ⟨op, e, -, -, -, rfl⟩ | ⟨op, i, u, -, -, -, executed, rfl⟩ := step_next_cases h
  · exact ⟨rfl, rfl⟩
  · exact ⟨rfl, rfl⟩
  · exact ⟨rfl, rfl⟩
  · rw [State.afterExecute_cfg, State.afterExecute_keys]
    obtain ⟨c, rfl⟩ | ⟨-, cfg, -, keys, -, -⟩ := exec_next_cases executed
    · exact ⟨rfl, rfl⟩
    · exact ⟨cfg, keys⟩

/-- Settles O17. -/
theorem stepKeepsParametersAndLatch : Obligations.StepKeepsParametersAndLatch := by
  unfold Obligations.StepKeepsParametersAndLatch
  intro s t h
  obtain ⟨cfg, keys⟩ := step_cfg_keys h
  refine ⟨cfg, fun k update => ?_, fun quiet => ?_⟩
  · rw [keys, update, Option.getD_some]
  · rw [keys, quiet, Option.getD_none]

end Sys2Proof.Machine
end

section
/-! PROOFS. The cycle: what a step of a running machine does, the halted and the parked machine over any number of steps,
and the timer step (spec/41_cycle.md R150, R154, R157, R160, spec/60_exceptions.md R280, R289, R291,
spec/70_reset_and_hazards.md R340). -/

namespace Sys2Proof.Machine

/-! ### One step of a running machine -/

section
variable {i : Instr} {s t u : State} {c : FatalCondition}

theorem State.fetch_of_le (h : s.pc.toNat ≤ 4094) : s.fetch = some s.wordAtPc := by
  rw [State.fetch, if_pos h]; rfl

theorem State.fetch_eq_wordAtPc {op : Word} (h : s.fetch = some op) : s.pc.toNat ≤ 4094 ∧ op = s.wordAtPc :=
  State.fetch_eq_some h

theorem State.afterExecute_of_running (h : s.running) : s.afterExecute = (s.timerStep s.cycleInput.delta).endCycle := by
  rw [State.afterExecute, h]

theorem State.afterExecute_of_halted (h : s.fault = some c) : s.afterExecute = s.endCycle := by
  rw [State.afterExecute, h]

/-- Executing does not use up the cycle's input. -/
theorem exec_cycleInput (h : exec i s = .next u) : u.inputs = s.inputs ∧ u.cycle = s.cycle := by
  obtain ⟨c, rfl⟩ | ⟨-, -, -, -, inputs, cycle⟩ := exec_next_cases h
  · exact ⟨rfl, rfl⟩
  · exact ⟨inputs, cycle⟩

theorem step_of_completes (running : s.running) (fetched : s.pc.toNat ≤ 4094)
    (decoded : decode s.cfg.family0Strict s.wordAtPc = .ok i) (h : Completes i s.arrive u) :
    step s = .next (u.timerStep s.cycleInput.delta).endCycle := by
  have executed := exec_of_completes h
  obtain ⟨inputs, cycle⟩ := exec_cycleInput executed
  rw [step_of_decode running (State.fetch_of_le fetched) decoded, executed, finishCycle,
    State.afterExecute_of_running (h.fault_eq.trans running), State.cycleInput_congr inputs cycle,
    State.cycleInput_arrive]

theorem step_of_cycleRaises (running : s.running) (h : CycleRaises s c) : step s = .next (s.arrive.raise c).endCycle := by
  obtain ⟨above, rfl⟩ | ⟨fetched, ⟨e, unsupported⟩, rfl⟩ | ⟨fetched, i, decoded, raises⟩ := h
  · have outside : s.arrive.fetch = none := State.fetch_eq_none.2 above
    simp only [step, State.runCycle, State.arrive_fault, running, outside]
    rfl
  · have word : s.arrive.fetch = some s.wordAtPc := State.fetch_of_le fetched
    simp only [step, State.runCycle, State.arrive_fault, running, word, State.arrive_cfg, unsupported]
    rfl
  · have executed : exec i s.arrive = .next (s.arrive.raise c) := exec_of_raises (raises.congr rfl rfl rfl fun _ _ => rfl)
    rw [step_of_decode running (State.fetch_of_le fetched) decoded, executed, finishCycle,
      State.afterExecute_of_halted (State.raise_fault _ c)]

/-- The two ways a step of a running machine goes: it raises a condition of the table, or it completes fetch, decode,
execute and the timer step. -/
theorem step_running_cases (running : s.running) (h : step s = .next t) :
    (∃ c, CycleRaises s c ∧ t = (s.arrive.raise c).endCycle) ∨
    (∃ i u, s.pc.toNat ≤ 4094 ∧ decode s.cfg.family0Strict s.wordAtPc = .ok i ∧ Completes i s.arrive u ∧
      t = (u.timerStep s.cycleInput.delta).endCycle) := by
  have raised {c} (raises : CycleRaises s c) : ∃ c, CycleRaises s c ∧ t = (s.arrive.raise c).endCycle :=
    ⟨c, raises, Host.Outcome.next.inj (h.symm.trans (step_of_cycleRaises running raises))⟩
  obtain ⟨c, halted, -⟩ | ⟨-, outside, -⟩ | ⟨op, e, -, fetched, unsupported, -⟩ |
    ⟨op, i, u, -, fetched, decoded, executed, -⟩ := step_next_cases h
  · cases running.symm.trans halted
  · exact Or.inl (raised (Or.inl ⟨State.fetch_eq_none.1 outside, rfl⟩))
  · obtain ⟨inside, rfl⟩ := State.fetch_eq_wordAtPc fetched
    exact Or.inl (raised (Or.inr (Or.inl ⟨inside, ⟨e, unsupported⟩, rfl⟩)))
  · obtain ⟨inside, rfl⟩ := State.fetch_eq_wordAtPc fetched
    obtain ⟨c, raises, -⟩ | completed := exec_next executed
    · exact Or.inl (raised (Or.inr (Or.inr ⟨inside, i, decoded, raises.congr rfl rfl rfl fun _ _ => rfl⟩)))
    · exact Or.inr ⟨i, u, inside, decoded, completed,
        Host.Outcome.next.inj (h.symm.trans (step_of_completes running inside decoded completed))⟩

end

/-- Settles O6: the rest of the cycle, with the input of the state before, since executing does not use it up. -/
theorem stepRunsTheDecodedInstruction : Obligations.StepRunsTheDecodedInstruction := by
  unfold Obligations.StepRunsTheDecodedInstruction
  intro s i running fetched _ decoded
  rw [step_of_decode running (State.fetch_of_le fetched) decoded,
    show ({ s with keys := s.cycleInput.keys.getD s.keys } : State) = s.arrive from rfl]
  cases executed : exec i s.arrive with
  | fault r => rfl
  | refused r => rfl
  | next u =>
    obtain ⟨inputs, cycle⟩ := exec_cycleInput executed
    have input : u.cycleInput = s.cycleInput := State.cycleInput_congr inputs cycle
    simp only [State.arrive_inputs, State.arrive_cycle] at inputs cycle
    dsimp only
    cases outcome : u.fault with
    | none =>
      rw [finishCycle, State.afterExecute_of_running outcome, State.endCycle, State.timerStep_inputs,
        State.timerStep_cycle, inputs, cycle, input, if_pos rfl]
    | some c =>
      rw [finishCycle, State.afterExecute_of_halted outcome, State.endCycle, inputs, cycle, if_neg (by simp), outcome]

/-- Settles O7. -/
theorem cycleCompletesOrChangesOnlyFault : Obligations.CycleCompletesOrChangesOnlyFault := by
  unfold Obligations.CycleCompletesOrChangesOnlyFault
  intro s t running h
  obtain ⟨c, -, rfl⟩ | ⟨i, u, fetched, decoded, completed, rfl⟩ := step_running_cases running h
  · exact Or.inr ⟨c, rfl, rfl⟩
  · exact Or.inl ⟨i, u, fetched, decoded, exec_of_completes completed, completed.fault_eq.trans running, rfl⟩

/-- Settles O8: a completed cycle leaves no condition, and a step has one outcome. -/
theorem conditionsAreRaisedExactlyWhenTheTableSays : Obligations.ConditionsAreRaisedExactlyWhenTheTableSays := by
  unfold Obligations.ConditionsAreRaisedExactlyWhenTheTableSays
  intro s t c running h
  constructor
  · intro latched
    obtain ⟨d, raises, rfl⟩ | ⟨i, u, -, -, completed, rfl⟩ := step_running_cases running h
    · obtain rfl : d = c := Option.some.inj latched
      exact raises
    · cases (completed.fault_eq.trans running).symm.trans latched
  · intro raises
    obtain rfl : (s.arrive.raise c).endCycle = t :=
      Host.Outcome.next.inj ((step_of_cycleRaises running raises).symm.trans h)
    rfl

/-- Settles O9. -/
theorem fetchAndDecodeFaults : Obligations.FetchAndDecodeFaults := by
  unfold Obligations.FetchAndDecodeFaults
  intro s running
  constructor
  · exact fun above => step_of_cycleRaises running (Or.inl ⟨above, rfl⟩)
  · exact fun e fetched unsupported => step_of_cycleRaises running (Or.inr (Or.inl ⟨fetched, ⟨e, unsupported⟩, rfl⟩))

/-- Settles O11: the instruction leaves the accumulator as it was, and the timer step is exact. -/
theorem timerStepIsExact : Obligations.TimerStepIsExact := by
  unfold Obligations.TimerStepIsExact
  intro s t running h completes
  obtain ⟨c, -, rfl⟩ | ⟨i, u, -, decoded, completed, rfl⟩ := step_running_cases running h
  · cases completes
  · have acc : u.acc = s.acc := completed.changed.acc
    obtain ⟨ticks, waits⟩ := u.timerStep_spec s.cycleInput.delta
    rw [acc] at ticks waits
    refine ⟨i, u, decoded, exec_of_completes completed, fun reached => ?_, waits⟩
    obtain ⟨remainder, dt, st⟩ := ticks reached
    refine ⟨remainder, ?_, ?_⟩
    · rw [State.endCycle_dt, dt, countDown_toNat]
    · rw [State.endCycle_st, st, countDown_toNat]

/-! ### Runs -/

theorem run_zero (s : State) : core.run 0 s = .next s := rfl

/-- Any machine's run of one step more, where that step answers a next state. -/
theorem hostRun_succ {M : Host.Core} {s u : M.State} (n : Nat) (h : M.step s = .next u) :
    M.run (n + 1) s = M.run n u := by
  rw [Host.Core.run, h]

theorem run_succ {s u : State} (n : Nat) (h : step s = .next u) : core.run (n + 1) s = core.run n u :=
  hostRun_succ (M := core) n h

/-- Settles O10: by induction on the number of steps, each of which only ends its cycle. -/
theorem haltedMachineNeverChanges : Obligations.HaltedMachineNeverChanges := by
  unfold Obligations.HaltedMachineNeverChanges
  intro s c n halted
  induction n generalizing s with
  | zero => exact ⟨s, run_zero s, rfl⟩
  | succ n ih =>
    obtain ⟨t, ran, same⟩ := ih s.arrive.endCycle halted
    exact ⟨t, (run_succ n (step_of_halted halted)).trans ran, same⟩

/-! ### The parked machine -/

section
variable {s : State}

/-- A parked machine runs a jump to the address it is at. -/
theorem State.jumps_of_parked (h : s.parked = true) :
    s.running ∧ s.pc.toNat ≤ 4094 ∧
      ∃ nnn, decode s.cfg.family0Strict s.wordAtPc = .ok (.jp nnn) ∧ addrOf nnn = s.pc := by
  simp only [State.parked, Bool.and_eq_true, decide_eq_true_eq] at h
  obtain ⟨running, parked⟩ := h
  split at parked
  · next op fetched =>
    obtain ⟨inside, rfl⟩ := State.fetch_eq_wordAtPc fetched
    simp only [Bool.and_eq_true, beq_iff_eq] at parked
    obtain ⟨family, target⟩ := parked
    refine ⟨running, inside, opNnn s.wordAtPc, ?_, ?_⟩
    · simp only [decode, show opFamily s.wordAtPc = 1 from family]
    · exact BitVec.eq_of_toNat_eq (by rw [addrOf_toNat, opNnn_toNat, target])
  · cases parked

/-- A parked machine's step is the timer step alone. -/
theorem step_of_parked (h : s.parked = true) : step s = .next (s.arrive.timerStep s.cycleInput.delta).endCycle := by
  obtain ⟨running, inside, nnn, decoded, target⟩ := State.jumps_of_parked h
  have stays : exec (.jp nnn) s.arrive = .next s.arrive := by
    simp only [exec, execJp, target]; rfl
  exact step_of_completes running inside decoded stays

theorem State.parked_timerStep (d : Seconds) : (s.arrive.timerStep d).endCycle.parked = s.parked := rfl

end

/-- Settles O12: by induction on the number of steps, each of which is the timer step alone. -/
theorem parkedMachineStaysParked : Obligations.ParkedMachineStaysParked := by
  unfold Obligations.ParkedMachineStaysParked
  intro s n parked
  induction n generalizing s with
  | zero => exact ⟨s, run_zero s, parked, rfl⟩
  | succ n ih =>
    obtain ⟨t, ran, parked', same⟩ := ih _ ((State.parked_timerStep s.cycleInput.delta).trans parked)
    exact ⟨t, (run_succ n (step_of_parked parked)).trans ran, parked', same⟩

/-- With nothing accumulated, 1/60 second is one tick with no remainder (R157). -/
theorem State.timerStep_tick {s : State} (h : s.acc = Seconds.zero) :
    (s.timerStep tick).acc = Seconds.zero ∧ (s.timerStep tick).dt = countDown s.dt ∧
      (s.timerStep tick).st = countDown s.st := by
  obtain ⟨ticks, -⟩ := s.timerStep_spec tick
  rw [h, toRat_zero, toRat_tick, zero_add] at ticks
  obtain ⟨remainder, dt, st⟩ := ticks le_rfl
  exact ⟨Seconds.ext_toRat (by rw [remainder, toRat_zero, sub_self]), dt, st⟩

/-- Settles O13: by induction on the number of steps, each of which takes the next scheduled 1/60 second. -/
theorem parkedMachineCountsTimersDown : Obligations.ParkedMachineCountsTimersDown := by
  unfold Obligations.ParkedMachineCountsTimersDown
  intro s n rnd parked acc inputs
  induction n generalizing s with
  | zero => exact ⟨s, run_zero s, acc, rfl, rfl, rfl⟩
  | succ n ih =>
    rw [List.replicate_succ] at inputs
    have input : s.cycleInput = tickInput rnd := by rw [State.cycleInput, inputs]
    have stepped := step_of_parked parked
    rw [show s.cycleInput.delta = tick by rw [input]; rfl] at stepped
    obtain ⟨remainder, dt, st⟩ := State.timerStep_tick (s := s.arrive) acc
    obtain ⟨t, ran, acc', pc', dt', st'⟩ := ih _ ((State.parked_timerStep tick).trans parked) remainder
      (by rw [State.endCycle_inputs, State.timerStep_inputs, State.arrive_inputs, inputs, List.tail_cons])
    refine ⟨t, (run_succ n stepped).trans ran, acc', pc', ?_, ?_⟩
    · rw [dt', State.endCycle_dt, dt, countDown_toNat, State.arrive_dt]; omega
    · rw [st', State.endCycle_st, st, countDown_toNat, State.arrive_st]; omega

end Sys2Proof.Machine
end

section
/-! PROOFS. What shows in nothing else: a register that an instruction does not read (spec/10_state.md R23), the sound
timer (section 6 there), and, except for the draw, the framebuffer (spec/45_display.md section 1). -/

namespace Sys2Proof.Machine

/-! ### Registers -/

/-- `t` and `u` are the same but for register `r`. -/
def SameBut (r : Reg) (t u : State) : Prop := u = { t with V := u.V } ∧ ∀ q, q ≠ r → u.reg q = t.reg q

section
variable {r : Reg} {i : Instr} {s t u : State}

theorem sameBut_setReg (s : State) (r : Reg) (v : Byte) : SameBut r s (s.setReg r v) :=
  ⟨rfl, fun _ hq => State.reg_setReg_of_ne hq⟩

theorem SameBut.setReg (h : SameBut r t u) (x : Reg) (a : Byte) : SameBut r (t.setReg x a) (u.setReg x a) := by
  obtain ⟨rest, same⟩ := h
  refine ⟨by rw [rest]; rfl, fun q hq => ?_⟩
  rw [State.reg_setReg, State.reg_setReg, same q hq]

theorem SameBut.setRegFlag (h : SameBut r t u) (x : Reg) (a f : Byte) :
    SameBut r (t.setRegFlag x a f) (u.setRegFlag x a f) :=
  (h.setReg x a).setReg VF f

theorem SameBut.advance (h : SameBut r t u) : SameBut r t.advance u.advance :=
  ⟨by rw [h.1]; rfl, h.2⟩

/-- A draw at the same coordinates reads no register. -/
theorem sameBut_drawSprite (s : State) (r : Reg) (v vx vy : Byte) (rows : List Byte) :
    SameBut r (s.drawSprite vx vy rows) ((s.setReg r v).drawSprite vx vy rows) := by
  refine ⟨rfl, fun q hq => ?_⟩
  by_cases flag : q = VF
  · rw [flag, State.reg_drawSprite_VF, State.reg_drawSprite_VF]; rfl
  · rw [State.reg_drawSprite_of_ne flag, State.reg_drawSprite_of_ne flag, State.reg_setReg_of_ne hq]

/-- A block load reads no register. -/
theorem sameBut_loadAtIndex (s : State) (r x : Reg) (v : Byte) :
    SameBut r { s with V := setRegsFrom 0 s.V (s.bytesAtIndex (x.val + 1)) }
      { s.setReg r v with V := setRegsFrom 0 (s.setReg r v).V ((s.setReg r v).bytesAtIndex (x.val + 1)) } := by
  refine ⟨rfl, fun q hq => ?_⟩
  obtain le | lt := le_or_gt q x
  · rw [State.reg_loadAtIndex_of_le s le]; exact State.reg_loadAtIndex_of_le (s.setReg r v) le
  · rw [State.reg_loadAtIndex_of_lt s lt]
    exact (State.reg_loadAtIndex_of_lt (s.setReg r v) lt).trans (State.reg_setReg_of_ne hq)

/-- A block store reads `V[0]` to `V[x]` alone. -/
theorem regsUpTo_setReg_of_lt (s : State) {r x : Reg} (v : Byte) (h : x < r) :
    (s.setReg r v).regsUpTo x = s.regsUpTo x := by
  refine List.ext_getElem (by simp) fun j hj hj' => ?_
  rw [State.getElem_regsUpTo, State.getElem_regsUpTo, State.reg_setReg_of_ne]
  rw [State.length_regsUpTo] at hj
  exact Fin.ne_of_lt (lt_of_le_of_lt (Nat.le_of_lt_succ hj : _ ≤ x.val) h)

/-- An instruction that completes does so with an unread register changed, and leaves the same state but for it. -/
theorem Completes.setReg_of_unread (v : Byte) (h : Completes i s t) (hr : ¬ ReadsReg i r) :
    ∃ u, exec i (s.setReg r v) = .next u ∧ SameBut r t u := by
  have base := sameBut_setReg s r v
  have unread {x : Reg} (hx : ¬ r = x) : (s.setReg r v).reg x = s.reg x := State.reg_setReg_of_ne (Ne.symm hx)
  cases i
  case cls g | jp nnn | ldINnn nnn => cases h; exact ⟨_, rfl, rfl, base.2⟩
  case ret g | call nnn => obtain ⟨k, entry, rfl⟩ := h; exact ⟨_, exec_of_completes ⟨k, entry, rfl⟩, rfl, base.2⟩
  case ldVxKk x kk | rnd x kk | ldVxDt x => cases h; exact ⟨_, rfl, (base.setReg x _).advance⟩
  case ldVxK x =>
    obtain ⟨k, down, lowest, rfl⟩ | ⟨up, rfl⟩ := h
    · exact ⟨_, exec_of_completes (Or.inl ⟨k, down, lowest, rfl⟩), (base.setReg x _).advance⟩
    · exact ⟨_, exec_of_completes (Or.inr ⟨up, rfl⟩), base⟩
  case ldVxMem x =>
    obtain ⟨range, rfl⟩ := h
    exact ⟨_, exec_of_completes ⟨range, rfl⟩, (sameBut_loadAtIndex s r x v).advance⟩
  case ldMemVx x =>
    obtain ⟨range, rfl⟩ := h
    refine ⟨_, exec_of_completes ⟨range, rfl⟩, ?_⟩
    rw [regsUpTo_setReg_of_lt s v (not_le.1 hr)]
    exact ⟨rfl, base.2⟩
  case jpV0Nnn | seVxKk | sneVxKk | addIVx | ldFVx | ldDtVx | ldStVx =>
    cases h
    refine ⟨_, rfl, ?_⟩
    rw [unread hr]
    exact ⟨rfl, base.2⟩
  case seVxVy x y | sneVxVy x y =>
    cases h
    refine ⟨_, rfl, ?_⟩
    rw [unread fun e => hr (Or.inl e), unread fun e => hr (Or.inr e)]
    exact ⟨rfl, base.2⟩
  case addVxKk x kk | ldVxVy x y =>
    cases h
    refine ⟨_, rfl, ?_⟩
    rw [unread hr]
    exact (base.setReg x _).advance
  case or x y | and x y | xor x y =>
    cases h
    refine ⟨_, rfl, ?_⟩
    rw [unread fun e => hr (Or.inl e), unread fun e => hr (Or.inr e)]
    exact (base.setReg x _).advance
  case shr x y | shl x y =>
    cases h
    refine ⟨_, rfl, ?_⟩
    rw [unread hr]
    exact (base.setRegFlag x _ _).advance
  case addVxVy x y | sub x y | subn x y =>
    cases h
    refine ⟨_, rfl, ?_⟩
    rw [unread fun e => hr (Or.inl e), unread fun e => hr (Or.inr e)]
    exact (base.setRegFlag x _ _).advance
  case drw x y n =>
    obtain ⟨range, rfl⟩ := h
    refine ⟨_, exec_of_completes ⟨range, rfl⟩, ?_⟩
    rw [unread fun e => hr (Or.inl e), unread fun e => hr (Or.inr e)]
    exact (sameBut_drawSprite s r v _ _ _).advance
  case skp x | sknp x =>
    obtain ⟨k, key, rfl⟩ := h
    exact ⟨_, exec_of_completes ⟨k, (congrArg BitVec.toNat (unread hr)).trans key, rfl⟩, rfl, base.2⟩
  case ldBVx x =>
    obtain ⟨range, rfl⟩ := h
    refine ⟨_, exec_of_completes ⟨range, rfl⟩, ?_⟩
    rw [unread hr]
    exact ⟨rfl, base.2⟩

end

/-- Settles O22: an unread register decides neither whether a condition is raised nor what a completed instruction leaves. -/
theorem registersReadAsTheMatrixSays : Obligations.RegistersReadAsTheMatrixSays := by
  unfold Obligations.RegistersReadAsTheMatrixSays
  intro i s t r v h hr
  obtain ⟨c, raises, rfl⟩ | completed := exec_next h
  · have unread (x : Reg) (kind : i = .skp x ∨ i = .sknp x) : (s.setReg r v).reg x = s.reg x := by
      obtain rfl | rfl := kind <;> exact State.reg_setReg_of_ne (Ne.symm hr)
    exact ⟨_, exec_of_raises (raises.congr rfl rfl rfl unread), rfl, (sameBut_setReg s r v).2⟩
  · exact completed.setReg_of_unread v hr

/-! ### The sound timer and the framebuffer -/

section
variable {i : Instr} {s t : State} {c : FatalCondition}

/-- Whether a cycle raises a condition depends on the parameters, the registers, `I`, `pc`, `sp` and memory alone. -/
theorem CycleRaises.congr (h : CycleRaises s c) (hcfg : t.cfg = s.cfg) (hV : t.V = s.V) (hI : t.I = s.I)
    (hpc : t.pc = s.pc) (hsp : t.sp = s.sp) (hmem : t.mem = s.mem) : CycleRaises t c := by
  have word : t.wordAtPc = s.wordAtPc := by simp only [State.wordAtPc, State.byteAt_congr hcfg hmem, hpc]
  simp only [CycleRaises, hpc, hcfg, word]
  refine h.imp_right fun h => h.imp_right fun ⟨fetched, i, decoded, raises⟩ => ⟨fetched, i, decoded, ?_⟩
  exact raises.congr hpc hsp hI fun x _ => by simp only [State.reg, hV]

theorem step_of_not_running (h : ¬ s.running) : step s = .next s.arrive.endCycle := by
  obtain ⟨c, halted⟩ := Option.ne_none_iff_exists'.1 h
  exact step_of_halted halted

theorem Completes.setSt (v : Byte) (h : Completes i s t) : ∃ w, Completes i { s with st := v } { t with st := w } := by
  cases i
  case ret g | call nnn | skp x | sknp x => obtain ⟨k, entry, rfl⟩ := h; exact ⟨v, k, entry, rfl⟩
  case drw x y n | ldBVx x | ldMemVx x | ldVxMem x => obtain ⟨range, rfl⟩ := h; exact ⟨v, range, rfl⟩
  case ldVxK x =>
    obtain ⟨k, down, lowest, rfl⟩ | ⟨up, rfl⟩ := h
    · exact ⟨v, Or.inl ⟨k, down, lowest, rfl⟩⟩
    · exact ⟨v, Or.inr ⟨up, rfl⟩⟩
  all_goals cases h; exact ⟨_, rfl⟩

theorem Completes.setFb (g : Framebuffer) (h : Completes i s t) (notDraw : ∀ x y n, i ≠ .drw x y n) :
    ∃ f, Completes i { s with fb := g } { t with fb := f } := by
  cases i
  case drw x y n => exact absurd rfl (notDraw x y n)
  case ret | call nnn | skp x | sknp x => obtain ⟨k, entry, rfl⟩ := h; exact ⟨g, k, entry, rfl⟩
  case ldBVx x | ldMemVx x | ldVxMem x => obtain ⟨range, rfl⟩ := h; exact ⟨g, range, rfl⟩
  case ldVxK x =>
    obtain ⟨k, down, lowest, rfl⟩ | ⟨up, rfl⟩ := h
    · exact ⟨g, Or.inl ⟨k, down, lowest, rfl⟩⟩
    · exact ⟨g, Or.inr ⟨up, rfl⟩⟩
  all_goals cases h; exact ⟨_, rfl⟩

end

/-- Settles O27: in each way a step goes, another value of `st` changes `st` alone. -/
theorem soundTimerShowsInNothingElse : Obligations.SoundTimerShowsInNothingElse := by
  unfold Obligations.SoundTimerShowsInNothingElse
  intro s t v h
  by_cases running : s.running
  · obtain ⟨c, raises, rfl⟩ | ⟨i, u, fetched, decoded, completed, rfl⟩ := step_running_cases running h
    · exact ⟨v, step_of_cycleRaises (s := { s with st := v }) running (raises.congr rfl rfl rfl rfl rfl rfl)⟩
    · obtain ⟨w, completed'⟩ := completed.setSt v
      exact ⟨_, step_of_completes (s := { s with st := v }) running fetched decoded completed'⟩
  · obtain rfl : s.arrive.endCycle = t := Host.Outcome.next.inj ((step_of_not_running running).symm.trans h)
    exact ⟨v, step_of_not_running (s := { s with st := v }) running⟩

/-- Settles O28: in each way a step goes, but for the draw, another framebuffer changes the framebuffer alone. -/
theorem framebufferIsReadByTheDrawAlone : Obligations.FramebufferIsReadByTheDrawAlone := by
  unfold Obligations.FramebufferIsReadByTheDrawAlone
  intro s t g h noDraw
  by_cases running : s.running
  · obtain ⟨c, raises, rfl⟩ | ⟨i, u, fetched, decoded, completed, rfl⟩ := step_running_cases running h
    · exact ⟨g, step_of_cycleRaises (s := { s with fb := g }) running (raises.congr rfl rfl rfl rfl rfl rfl)⟩
    · obtain ⟨f, completed'⟩ := completed.setFb g fun x y n e => noDraw x y n (e ▸ decoded)
      exact ⟨f, step_of_completes (s := { s with fb := g }) running fetched decoded completed'⟩
  · obtain rfl : s.arrive.endCycle = t := Host.Outcome.next.inj ((step_of_not_running running).symm.trans h)
    exact ⟨g, step_of_not_running (s := { s with fb := g }) running⟩

end Sys2Proof.Machine
end

section
/-! PROOFS. Each kind's rule in full, for the kinds that set registers, `pc`, `I`, a timer or the call stack
(spec/42_control_flow.md, spec/43_alu.md, spec/44_index_memory.md section 2, spec/46_timers_keys.md), and the words that
the rules name. -/

namespace Sys2Proof

/-! ### Words -/

theorem encode_ret (g : Fin 16) : encode (.ret g) = BitVec.ofNat 16 (g.val * 256 + 0xEE) := by
  rw [encode, formatX, Nat.zero_mul, Nat.zero_add]

/-- A format X word, as the rules write it: the fixed nibbles first. -/
theorem formatX_eq (f lo : Nat) (x : Fin 16) : formatX f x lo = BitVec.ofNat 16 (f * 4096 + lo + x.val * 256) := by
  rw [formatX, Nat.add_right_comm]

/-- A format XY word whose last nibble is 0. -/
theorem formatXYN_zero (f : Nat) (x y : Reg) :
    formatXYN f x y 0 = BitVec.ofNat 16 (f * 4096 + x.val * 256 + y.val * 16) := by
  rw [formatXYN, nibbles, Nat.add_zero]

end Sys2Proof

namespace Sys2Proof.Machine

/-! ### Frames -/

section
variable (s : State)

theorem onlyRegsPc_setReg_advance (x : Reg) (v : Byte) : OnlyRegsPc s (s.setReg x v).advance :=
  ⟨rfl, State.byteAt_congr rfl rfl⟩

theorem onlyRegsPc_setRegFlag_advance (x : Reg) (v f : Byte) : OnlyRegsPc s (s.setRegFlag x v f).advance :=
  ⟨rfl, State.byteAt_congr rfl rfl⟩

theorem onlyPc_setPc (p : Word) : OnlyPc s { s with pc := p } := ⟨rfl, State.byteAt_congr rfl rfl⟩

theorem onlyPc_skipIf (b : Bool) : OnlyPc s (s.skipIf b) := onlyPc_setPc s _

end

/-! ### Control flow -/

/-- Settles O30. -/
theorem retPopsTheReturnAddress : Obligations.RetPopsTheReturnAddress := by
  unfold Obligations.RetPopsTheReturnAddress
  simp only [← encode_ret]
  refine ⟨fun s g => exec_ret_of_empty g, fun s g k entry => ?_, fun strict g => decode_encode_ret⟩
  exact ⟨_, exec_ret_of_entry g entry, toNat_pred_of_toNat_eq_succ entry, rfl, rfl, rfl, State.byteAt_congr rfl rfl⟩

/-- The stack after a push at entry `k`. -/
theorem getElem_stack_set (stack : Vector Word 16) (k j : Fin 16) (a : Word) :
    (stack.set k a)[j] = if j = k then a else stack[j] := by
  simp only [Fin.getElem_fin, Vector.getElem_set, Fin.ext_iff, eq_comm]

/-- Settles O31. -/
theorem callPushesTheReturnAddress : Obligations.CallPushesTheReturnAddress := by
  unfold Obligations.CallPushesTheReturnAddress
  refine ⟨fun s nnn => exec_call_of_full nnn, fun s nnn k room => ?_,
    fun strict nnn => decode_encode (i := .call nnn) rfl⟩
  refine ⟨_, exec_call_of_room nnn room, ?_, fun j other => ?_, ?_, addrOf_toNat nnn, rfl, State.byteAt_congr rfl rfl⟩
  · rw [getElem_stack_set, if_pos rfl]
  · rw [getElem_stack_set, if_neg other]
  · rw [BitVec.toNat_add, room, show (1 : Byte).toNat = 1 from rfl]; omega

/-- Settles O32: the entry `CALL` wrote is the one `RET` reads. -/
theorem returnFollowsTheMatchingCall : Obligations.ReturnFollowsTheMatchingCall := by
  unfold Obligations.ReturnFollowsTheMatchingCall
  intro s u nnn g room
  obtain ⟨-, call, -⟩ := callPushesTheReturnAddress
  obtain ⟨-, ret, -⟩ := retPopsTheReturnAddress
  obtain ⟨t, called, pushed, -, sp, -⟩ := call s nnn ⟨s.sp.toNat, room⟩ rfl
  refine ⟨t, called, fun same_sp same_stack => ?_⟩
  obtain ⟨w, returned, sp', pc', -⟩ := ret u g ⟨s.sp.toNat, room⟩ (by rw [same_sp, sp])
  exact ⟨w, returned, by rw [pc', same_stack, pushed], BitVec.eq_of_toNat_eq sp'⟩

/-- Settles O33. -/
theorem jumpsSetPc : Obligations.JumpsSetPc := by
  unfold Obligations.JumpsSetPc
  intro s nnn
  exact ⟨⟨_, rfl, addrOf_toNat nnn, onlyPc_setPc s _⟩, ⟨_, rfl, toNat_addrOf_add_wide nnn _, onlyPc_setPc s _⟩⟩

/-- A skip on equality: by 4 if the operands are equal, by 2 if not (R179). -/
theorem skipIf_beq_spec {α : Type} [DecidableEq α] (s : State) (a b : α) :
    (a = b → (s.skipIf (a == b)).pc = s.pc + 4) ∧ (a ≠ b → (s.skipIf (a == b)).pc = s.pc + 2) ∧
      OnlyPc s (s.skipIf (a == b)) :=
  ⟨fun h => by rw [State.skipIf_pc_beq, if_pos h], fun h => by rw [State.skipIf_pc_beq, if_neg h], onlyPc_skipIf s _⟩

/-- A skip on inequality: by 4 if the operands differ, by 2 if not (R179). -/
theorem skipIf_bne_spec {α : Type} [DecidableEq α] (s : State) (a b : α) :
    (a ≠ b → (s.skipIf (a != b)).pc = s.pc + 4) ∧ (a = b → (s.skipIf (a != b)).pc = s.pc + 2) ∧
      OnlyPc s (s.skipIf (a != b)) :=
  ⟨fun h => by rw [State.skipIf_pc_bne, if_neg h], fun h => by rw [State.skipIf_pc_bne, if_pos h], onlyPc_skipIf s _⟩

/-- Settles O34. -/
theorem compareAndSkip : Obligations.CompareAndSkip := by
  unfold Obligations.CompareAndSkip
  refine ⟨fun s x kk => ⟨?_, ?_⟩, fun s x y => ⟨?_, ?_⟩, fun strict x y kk => ⟨?_, ?_, ?_, ?_⟩⟩
  · exact ⟨_, rfl, skipIf_beq_spec s _ _⟩
  · exact ⟨_, rfl, skipIf_bne_spec s _ _⟩
  · exact ⟨_, rfl, skipIf_beq_spec s _ _⟩
  · exact ⟨_, rfl, skipIf_bne_spec s _ _⟩
  · exact decode_encode (i := .seVxKk x kk) rfl
  · exact decode_encode (i := .sneVxKk x kk) rfl
  · exact formatXYN_zero 0x5 x y ▸ decode_encode (i := .seVxVy x y) rfl
  · exact formatXYN_zero 0x9 x y ▸ decode_encode (i := .sneVxVy x y) rfl

/-! ### Loads, arithmetic, logic, shifts, random -/

/-- A completed load of a register: the value, no other register, `pc` two on, nothing else. -/
theorem setReg_advance_spec (s : State) (x : Reg) (v : Byte) :
    (s.setReg x v).advance.reg x = v ∧ (∀ r, r ≠ x → (s.setReg x v).advance.reg r = s.reg r) ∧
      (s.setReg x v).advance.pc = s.pc + 2 ∧ OnlyRegsPc s (s.setReg x v).advance :=
  ⟨State.reg_setReg_self s x v, fun _ => State.reg_setReg_of_ne, rfl, onlyRegsPc_setReg_advance s x v⟩

/-- A completed result with a flag: the value unless `x` is `VF`, the flag, no other register, `pc` two on, nothing else
(R197, decision D7). -/
theorem setRegFlag_advance_spec (s : State) (x : Reg) (v f : Byte) :
    (x ≠ VF → (s.setRegFlag x v f).advance.reg x = v) ∧ (s.setRegFlag x v f).advance.reg VF = f ∧
      (∀ r, r ≠ x → r ≠ VF → (s.setRegFlag x v f).advance.reg r = s.reg r) ∧
      (s.setRegFlag x v f).advance.pc = s.pc + 2 ∧ OnlyRegsPc s (s.setRegFlag x v f).advance :=
  ⟨State.reg_setRegFlag_self s v f, State.reg_setRegFlag_VF s x v f, fun _ => State.reg_setRegFlag_of_ne, rfl,
    onlyRegsPc_setRegFlag_advance s x v f⟩

/-- Settles O35. -/
theorem loadsAndAddImmediate : Obligations.LoadsAndAddImmediate := by
  unfold Obligations.LoadsAndAddImmediate
  intro s x y kk
  refine ⟨⟨_, rfl, setReg_advance_spec s x _⟩, ?_, ⟨_, rfl, setReg_advance_spec s x _⟩⟩
  obtain ⟨value, frame⟩ := setReg_advance_spec s x (addBytes (s.reg x) kk)
  exact ⟨_, rfl, by rw [value, addBytes_toNat], frame⟩

/-- Settles O36. -/
theorem logicBitByBit : Obligations.LogicBitByBit := by
  unfold Obligations.LogicBitByBit
  intro s x y
  refine ⟨?_, ?_, ?_⟩
  · obtain ⟨value, frame⟩ := setReg_advance_spec s x (s.reg x ||| s.reg y)
    exact ⟨_, rfl, fun b _ => by rw [value, BitVec.getLsbD_or], frame⟩
  · obtain ⟨value, frame⟩ := setReg_advance_spec s x (s.reg x &&& s.reg y)
    exact ⟨_, rfl, fun b _ => by rw [value, BitVec.getLsbD_and], frame⟩
  · obtain ⟨value, frame⟩ := setReg_advance_spec s x (s.reg x ^^^ s.reg y)
    exact ⟨_, rfl, fun b _ => by rw [value, BitVec.getLsbD_xor], frame⟩

theorem flagByte_decide (p : Prop) [Decidable p] : flagByte (decide p) = if p then 1 else 0 := by
  by_cases h : p <;> simp [flagByte, h]

/-- Settles O37. -/
theorem addWithCarryOut : Obligations.AddWithCarryOut := by
  unfold Obligations.AddWithCarryOut
  intro s x y
  obtain ⟨value, flag, frame⟩ :=
    setRegFlag_advance_spec s x (addBytes (s.reg x) (s.reg y)) (carryFlag (s.reg x) (s.reg y))
  exact ⟨_, rfl, fun h => by rw [value h, addBytes_toNat], by rw [flag, carryFlag, flagByte_decide], frame⟩

/-- Settles O38. -/
theorem subtractWithStrictFlag : Obligations.SubtractWithStrictFlag := by
  unfold Obligations.SubtractWithStrictFlag
  intro s x y
  have difference (a b : Byte) := setRegFlag_advance_spec s x (subBytes a b) (strictlyGreaterFlag a b)
  constructor
  · obtain ⟨value, flag, frame⟩ := difference (s.reg x) (s.reg y)
    exact ⟨_, rfl, fun h => by rw [value h, subBytes_toNat], by rw [flag, strictlyGreaterFlag, flagByte_decide], frame⟩
  · obtain ⟨value, flag, frame⟩ := difference (s.reg y) (s.reg x)
    exact ⟨_, rfl, fun h => by rw [value h, subBytes_toNat], by rw [flag, strictlyGreaterFlag, flagByte_decide], frame⟩

/-- The flag of a right shift, by the source of the flag (R200, R204). -/
theorem toNat_shiftRightFlag (a : Byte) :
    (shiftRightFlag .before a).toNat = a.toNat % 2 ∧ (shiftRightFlag .after a).toNat = a.toNat / 2 % 2 := by
  simp only [shiftRightFlag, BitVec.toNat_ofNat, shiftedRight_toNat]
  omega

/-- The flag of a left shift, by the source of the flag (R202, R204). -/
theorem toNat_shiftLeftFlag (a : Byte) :
    (shiftLeftFlag .before a).toNat = a.toNat / 128 ∧ (shiftLeftFlag .after a).toNat = a.toNat * 2 % 256 / 128 := by
  have := a.isLt
  simp only [shiftLeftFlag, BitVec.toNat_ofNat, shiftedLeft_toNat]
  omega

/-- Settles O39. -/
theorem shiftByOne : Obligations.ShiftByOne := by
  unfold Obligations.ShiftByOne
  intro s x y
  constructor
  · obtain ⟨value, flag, frame⟩ := setRegFlag_advance_spec s x (shiftedRight (s.reg x))
      (shiftRightFlag s.cfg.shiftFlagSource (s.reg x))
    obtain ⟨before, after⟩ := toNat_shiftRightFlag (s.reg x)
    exact ⟨_, rfl, fun h => by rw [value h, shiftedRight_toNat], fun source => by rw [flag, source, before],
      fun source => by rw [flag, source, after], frame⟩
  · obtain ⟨value, flag, frame⟩ := setRegFlag_advance_spec s x (shiftedLeft (s.reg x))
      (shiftLeftFlag s.cfg.shiftFlagSource (s.reg x))
    obtain ⟨before, after⟩ := toNat_shiftLeftFlag (s.reg x)
    exact ⟨_, rfl, fun h => by rw [value h, shiftedLeft_toNat], fun source => by rw [flag, source, before],
      fun source => by rw [flag, source, after], frame⟩

/-- Settles O40. -/
theorem randomIsTheMaskedDraw : Obligations.RandomIsTheMaskedDraw := by
  unfold Obligations.RandomIsTheMaskedDraw
  intro s x kk
  obtain ⟨value, frame⟩ := setReg_advance_spec s x (s.cycleInput.rnd &&& kk)
  refine ⟨_, rfl, value, fun input rest scheduled => ?_, ?_, frame⟩
  · rw [value, State.cycleInput, scheduled]
  · rw [value, BitVec.and_assoc, BitVec.and_not_self]; simp

/-! ### The index register -/

/-- Settles O42. -/
theorem addToIndex : Obligations.AddToIndex := by
  unfold Obligations.AddToIndex
  intro s x
  have sum : (s.I + wide (s.reg x)).toNat = (s.I.toNat + (s.reg x).toNat) % 65536 := by
    rw [BitVec.toNat_add, wide_toNat]
  exact ⟨_, rfl, sum, rfl, onlyIndexPc_setIndex_advance s _⟩

/-- Settles O43 (`glyphAddress` itself is the model's name of the sum). -/
theorem loadGlyphAddress : Obligations.GlyphAddress := by
  unfold Obligations.GlyphAddress
  refine ⟨fun s x => ⟨_, rfl, glyphAddress_toNat (s.reg x), rfl, onlyIndexPc_setIndex_advance s _⟩, fun strict x => ?_⟩
  exact formatX_eq 0xF 0x29 x ▸ decode_encode (i := .ldFVx x) rfl

/-! ### Keys and timers -/

/-- Settles O52. -/
theorem keySkips : Obligations.KeySkips := by
  unfold Obligations.KeySkips
  intro s x k key
  refine ⟨⟨_, exec_skp_of_key key, ?_, ?_, onlyPc_skipIf s _⟩, ⟨_, exec_sknp_of_key key, ?_, ?_, onlyPc_skipIf s _⟩⟩ <;>
    exact fun status => by rw [status]; rfl

/-- Settles O53. -/
theorem keyIndexAboveFifteenFaults : Obligations.KeyIndexAboveFifteenFaults := by
  unfold Obligations.KeyIndexAboveFifteenFaults
  exact fun s x above => ⟨exec_skp_of_above above, exec_sknp_of_above above⟩

/-- Settles O54. -/
theorem waitForKey : Obligations.WaitForKey := by
  unfold Obligations.WaitForKey
  refine ⟨fun s x k down lowest => ?_, fun s x => exec_ldVxK_of_up, fun s x running fetched decoded up => ?_,
    fun strict x => ?_⟩
  · obtain ⟨value, frame⟩ := setReg_advance_spec s x (BitVec.ofNat 8 k.val)
    exact ⟨_, exec_ldVxK_of_down down lowest, by rw [value, BitVec.toNat_ofNat]; omega, frame⟩
  · exact step_of_completes running fetched decoded (Or.inr ⟨up, rfl⟩)
  · exact formatX_eq 0xF 0x0A x ▸ decode_encode (i := .ldVxK x) rfl

/-- Settles O55. -/
theorem timerAccess : Obligations.TimerAccess := by
  unfold Obligations.TimerAccess
  intro s x
  exact ⟨⟨_, rfl, setReg_advance_spec s x s.dt⟩, ⟨_, rfl, rfl, rfl, rfl, rfl, State.byteAt_congr rfl rfl⟩,
    ⟨_, rfl, rfl, rfl, rfl, rfl, State.byteAt_congr rfl rfl⟩⟩

end Sys2Proof.Machine
end

section
/-! PROOFS. The transfers between registers and memory, the range they check, and reset (spec/44_index_memory.md
section 3, spec/20_memory.md, spec/70_reset_and_hazards.md section 1). -/

namespace Sys2Proof.Machine

/-! ### Stores and loads through `I` -/

section
variable (s : State)

theorem onlyMemPc_storeAtIndex_advance (vs : List Byte) : OnlyMemPc s (s.storeAtIndex vs).advance := rfl

/-- The digits of a byte, hundreds first (R224). -/
theorem bcdDigits_spec (a : Byte) :
    (bcdDigits a)[0].toNat = a.toNat / 100 ∧ (bcdDigits a)[1].toNat = a.toNat / 10 % 10 ∧
      (bcdDigits a)[2].toNat = a.toNat % 10 := by
  have := a.isLt
  simp only [bcdDigits, List.getElem_cons_zero, List.getElem_cons_succ, BitVec.toNat_ofNat]
  omega

/-- The byte a block store puts at `I + r` is `V[r]`. -/
theorem State.byteAt_storeRegs {x r : Reg} (h : r ≤ x) :
    (s.storeAtIndex (s.regsUpTo x)).byteAt (s.I.toNat + r.val) = s.reg r := by
  have inside : r.val < (s.regsUpTo x).length := by rw [State.length_regsUpTo]; exact Nat.lt_succ_of_le h
  rw [State.byteAt_storeAtIndex_add s _ r.val inside, State.getElem_regsUpTo]

end

/-- Settles O44. -/
theorem storeDecimalDigits : Obligations.StoreDecimalDigits := by
  unfold Obligations.StoreDecimalDigits
  intro s x range
  have stored (i : Nat) (h : i < (bcdDigits (s.reg x)).length) := s.byteAt_storeAtIndex_add (bcdDigits (s.reg x)) i h
  obtain ⟨hundreds, tens, ones⟩ := bcdDigits_spec (s.reg x)
  have bound := (s.reg x).isLt
  refine ⟨_, exec_ldBVx_of_inRange x range, ?_⟩
  simp only [State.byteAt_advance]
  rw [show s.I.toNat = s.I.toNat + 0 from rfl, stored 0 (by simp), Nat.add_zero, stored 1 (by simp), stored 2 (by simp),
    hundreds, tens, ones]
  refine ⟨by omega, by omega, by omega, by omega, fun a outside => ?_, rfl, onlyMemPc_storeAtIndex_advance s _⟩
  exact s.byteAt_storeAtIndex_outside _ a (by rw [length_bcdDigits]; omega)

/-- Settles O45. -/
theorem storeRegisters : Obligations.StoreRegisters := by
  unfold Obligations.StoreRegisters
  intro s x range
  refine ⟨_, exec_ldMemVx_of_inRange range, fun r le => s.byteAt_storeRegs le, fun a outside => ?_, rfl,
    onlyMemPc_storeAtIndex_advance s _⟩
  exact s.byteAt_storeAtIndex_outside _ a (by rw [State.length_regsUpTo]; omega)

/-- Settles O46. -/
theorem loadRegisters : Obligations.LoadRegisters := by
  unfold Obligations.LoadRegisters
  intro s x range
  exact ⟨_, exec_ldVxMem_of_inRange range, fun r => s.reg_loadAtIndex_of_le, fun r => s.reg_loadAtIndex_of_lt, rfl, rfl,
    State.byteAt_congr rfl rfl⟩

/-- Settles O47: the load reads the bytes that the store wrote. -/
theorem blockLoadRestoresBlockStore : Obligations.BlockLoadRestoresBlockStore := by
  unfold Obligations.BlockLoadRestoresBlockStore
  intro s u x range
  obtain ⟨t, stored, bytes, -⟩ := storeRegisters s x range
  refine ⟨t, stored, fun same_I same_cfg same_mem => ?_⟩
  obtain ⟨w, loaded, regs, -⟩ := loadRegisters u x (by rwa [same_I])
  exact ⟨w, loaded, fun r le => by rw [regs r le, State.byteAt_congr same_cfg same_mem, same_I, bytes r le]⟩

/-- Settles O29: the two bytes fetched are two of those stored. -/
theorem storedCodeIsFetched : Obligations.StoredCodeIsFetched := by
  unfold Obligations.StoredCodeIsFetched
  intro s x p i range next address
  obtain ⟨t, stored, bytes, -⟩ := storeRegisters s x range
  have succ : (i + 1 : Fin 16).val = i.val + 1 := Fin.val_add_one_of_lt' (by omega)
  have low : t.byteAt (p.toNat + 1) = s.reg (i + 1) := by
    rw [address, Nat.add_assoc, ← succ, bytes (i + 1) (by rw [Fin.le_def, succ]; exact next)]
  have high : t.byteAt p.toNat = s.reg i := by
    rw [address, bytes i (by rw [Fin.le_def]; omega)]
  refine ⟨t, stored, ?_⟩
  rw [State.fetch, if_pos (show p.toNat ≤ 4094 by omega)]
  rw [← high, ← low]
  rfl

/-- Settles O48. -/
theorem rangeOutsideMemoryFaults : Obligations.RangeOutsideMemoryFaults := by
  unfold Obligations.RangeOutsideMemoryFaults
  intro s x y n
  refine ⟨exec_ldBVx_of_outOfRange x, fun range => ?_, fun rows range => ?_⟩
  · exact ⟨exec_ldMemVx_of_outOfRange range, exec_ldVxMem_of_outOfRange range⟩
  · exact exec_drw_of_outOfRange x y ((not_drawInRange_iff s n.val).2 ⟨rows, range⟩)

/-! ### Reset -/

/-- The state `reset` answers with for an image that fits. -/
theorem reset_of_fits (c : Config) {rom : List Byte} (h : rom.length ≤ 3584) :
    reset c (some rom) = .ok { State.resetWith c with mem := Memory.writeList c.font [] progBase rom } := by
  rw [reset, if_pos h]

/-- Settles O19. -/
theorem resetRefusesUnreadableOrLongImages : Obligations.ResetRefusesUnreadableOrLongImages := by
  unfold Obligations.ResetRefusesUnreadableOrLongImages
  exact fun c => ⟨⟨_, rfl⟩, fun rom long => ⟨_, by rw [reset, if_neg (Nat.not_le.2 long)]⟩⟩

/-- A byte of the loaded memory: the image's from 0x200 upward, elsewhere what reset puts there. -/
theorem read_loaded (font : Vector Byte 80) (rom : List Byte) (a : Nat) :
    Memory.read font (Memory.writeList font [] progBase rom) a =
      if h : 0x200 ≤ a ∧ a - 0x200 < rom.length then rom[a - 0x200] else initialByte font a :=
  Memory.read_writeList font rom [] progBase a

/-- Settles O18. -/
theorem resetLoadsFontAndProgram : Obligations.ResetLoadsFontAndProgram := by
  unfold Obligations.ResetLoadsFontAndProgram
  intro c rom legal fits
  have byte := read_loaded c.font rom
  refine ⟨_, reset_of_fits c fits, rfl, rfl, rfl, fun a font => ?_, fun i image => ?_, fun a above outside => ?_, ?_⟩
  · exact (byte a).trans (by rw [dif_neg (by omega), initialByte_of_lt c.font a font])
  · exact (byte (0x200 + i)).trans (by simp [image])
  · exact (byte a).trans (by rw [dif_neg (by omega), initialByte_of_le c.font a above])
  · have inv := State.inv_resetWith legal
    refine ⟨fun r => ?_, rfl, rfl, fun k => ?_, rfl, rfl, rfl, fun k => ?_, fun k => rfl, ?_⟩
    · simp [State.reg]
    · simp
    · simp
    · exact { inv with mem := Memory.wf_writeList _ rom _ _ (Memory.wf_nil _) (by simp [memSize, progBase]; omega) }

end Sys2Proof.Machine
end

section
/-! PROOFS. The draw, pixel by pixel, and the double draw (spec/45_display.md section 3). -/

namespace Sys2Proof.Machine

/-- The cells that `DRW Vx, Vy, n` toggles. -/
def State.drawnCells (s : State) (x y : Reg) (n : Nat) : List Nat :=
  spriteCells s.cfg.displayW s.cfg.displayH (s.reg x).toNat (s.reg y).toNat 0 (s.bytesAtIndex n)

theorem Config.wf_iff (c : Config) : c.wf = true ↔ 8 ≤ c.displayW ∧ 15 ≤ c.displayH := by
  simp [Config.wf]

theorem flagByte_eq_one_iff (b : Bool) : flagByte b = 1 ↔ b = true := by cases b <;> simp [flagByte]

theorem flagByte_eq_zero_iff (b : Bool) : flagByte b = 0 ↔ b = false := by cases b <;> simp [flagByte]

section
variable {s : State} {x y : Reg} {n : Nat}

/-- The toggled cells are those of the pixels under a 1 bit of the sprite. -/
theorem mem_drawnCells {k : Nat} :
    k ∈ s.drawnCells x y n ↔ ∃ c r, SpriteOn s x y n c r ∧ k = r * s.cfg.displayW + c := by
  simp only [State.drawnCells, mem_spriteCells, State.length_bytesAtIndex, State.getElem_bytesAtIndex, Nat.add_zero]
  constructor
  · rintro ⟨i, hi, j, hj, bit, rfl⟩
    exact ⟨_, _, ⟨i, hi, j, hj, bit, rfl, rfl⟩, rfl⟩
  · rintro ⟨c, r, ⟨i, hi, j, hj, bit, rfl, rfl⟩, rfl⟩
    exact ⟨i, hi, j, hj, bit, rfl⟩

theorem SpriteOn.column_lt {c r : Nat} (legal : s.cfg.wf = true) (h : SpriteOn s x y n c r) : c < s.cfg.displayW := by
  obtain ⟨width, -⟩ := (Config.wf_iff s.cfg).1 legal
  obtain ⟨i, -, j, -, -, rfl, -⟩ := h
  exact Nat.mod_lt _ (by omega)

/-- The cell of a pixel of the display is toggled where the pixel is under a 1 bit. -/
theorem cell_mem_drawnCells {c r : Nat} (legal : s.cfg.wf = true) (hc : c < s.cfg.displayW) :
    r * s.cfg.displayW + c ∈ s.drawnCells x y n ↔ SpriteOn s x y n c r := by
  rw [mem_drawnCells]
  constructor
  · rintro ⟨c', r', on, cell⟩
    obtain ⟨rfl, rfl⟩ := cell_inj hc (on.column_lt legal) cell
    exact on
  · exact fun on => ⟨c, r, on, rfl⟩

/-- No cell is toggled twice: the display is at least 8 by 15 (R7) and a sprite at most 8 by 15. -/
theorem nodup_drawnCells (legal : s.cfg.wf = true) (rows : n < 16) : (s.drawnCells x y n).Nodup := by
  obtain ⟨width, height⟩ := (Config.wf_iff s.cfg).1 legal
  exact spriteCells_nodup _ _ _ _ _ 0 width (by rw [State.length_bytesAtIndex]; omega)

/-- What a draw leaves: the framebuffer with the sprite's cells toggled, and the collision in `VF` (R243). -/
theorem exec_drw_spec {n : Fin 16} (range : DrawInRange s n.val) :
    ∃ t, exec (.drw x y n) s = .next t ∧ t.fb = (xorCells (s.drawnCells x y n.val) s.fb).1 ∧
      t.reg VF = flagByte (xorCells (s.drawnCells x y n.val) s.fb).2 ∧ (∀ r, r ≠ VF → t.reg r = s.reg r) ∧
      t.pc = s.pc + 2 ∧ OnlyDisplayRegsPc s t :=
  ⟨_, exec_drw_of_inRange x y range, rfl, State.reg_drawSprite_VF s _ _ _, fun _ => State.reg_drawSprite_of_ne, rfl, rfl,
    State.byteAt_congr rfl rfl⟩

end

/-- Settles O50: the sprite's cells are distinct, so each is toggled once, and a collision is a lit cell among them. -/
theorem drawInvertsTheSpritePixels : Obligations.DrawInvertsTheSpritePixels := by
  unfold Obligations.DrawInvertsTheSpritePixels
  intro s x y n legal range
  have distinct := nodup_drawnCells (x := x) (y := y) legal n.isLt
  obtain ⟨t, executed, fb, flag, regs, pc, frame⟩ := exec_drw_spec (x := x) (y := y) range
  have config : t.cfg = s.cfg := (exec_changed executed).cfg
  have pixel (c r : Nat) (hc : c < s.cfg.displayW) :
      t.pixel c r = (s.pixel c r ^^ decide (r * s.cfg.displayW + c ∈ s.drawnCells x y n.val)) := by
    rw [State.pixel, config, fb, xorCells_lit _ _ distinct, State.pixel]
  have collision := xorCells_collision (s.drawnCells x y n.val) s.fb distinct
  refine ⟨t, executed, fun c r hc _ on => ?_, fun c r hc _ off => ?_, ?_, ?_, regs, pc, frame⟩
  · simp [pixel c r hc, (cell_mem_drawnCells legal hc).2 on]
  · simp [pixel c r hc, mt (cell_mem_drawnCells legal hc).1 off]
  · rintro ⟨c, r, on, lit⟩
    rw [flag, flagByte_eq_one_iff, collision]
    exact ⟨_, mem_drawnCells.2 ⟨c, r, on, rfl⟩, lit⟩
  · intro dark
    rw [flag, flagByte_eq_zero_iff, Bool.eq_false_iff, ne_eq, collision]
    rintro ⟨k, drawn, lit⟩
    obtain ⟨c, r, on, rfl⟩ := mem_drawnCells.1 drawn
    exact Bool.noConfusion ((dark c r on).symm.trans lit)

/-- Toggling distinct cells of the display twice gives back a canonical framebuffer. -/
theorem xorCells_twice {cells : Nat} {ks : List Nat} {fb : Framebuffer} (canonical : Framebuffer.wf cells fb)
    (inside : ∀ k ∈ ks, k < cells) (distinct : ks.Nodup) : (xorCells ks (xorCells ks fb).1).1 = fb := by
  have once := xorCells_wf cells ks fb canonical inside
  have twice := xorCells_wf cells ks _ once inside
  refine Framebuffer.ext_lit twice.1 canonical.1 fun k => ?_
  rw [xorCells_lit _ _ distinct, xorCells_lit _ _ distinct, Bool.xor_assoc, Bool.xor_self, Bool.xor_false]

/-- The second of two toggles collides where a cell was dark at first. -/
theorem xorCells_collision_twice {ks : List Nat} (fb : Framebuffer) (distinct : ks.Nodup) :
    (xorCells ks (xorCells ks fb).1).2 = true ↔ ∃ k ∈ ks, Framebuffer.lit fb k = false := by
  rw [xorCells_collision _ _ distinct]
  refine exists_congr fun k => and_congr_right fun drawn => ?_
  simp [xorCells_lit _ _ distinct, drawn]

/-- Settles O51: neither coordinate is `VF`, so the second draw toggles the cells of the first. -/
theorem drawingTwiceRestoresTheDisplay : Obligations.DrawingTwiceRestoresTheDisplay := by
  unfold Obligations.DrawingTwiceRestoresTheDisplay
  intro s x y n inv hx hy range
  have distinct := nodup_drawnCells (x := x) (y := y) inv.cfg n.isLt
  obtain ⟨width, height⟩ := (Config.wf_iff s.cfg).1 inv.cfg
  have inside : ∀ k ∈ s.drawnCells x y n.val, k < s.cfg.cells := fun k =>
    spriteCells_lt _ _ _ _ _ _ k (by omega) (by omega)
  obtain ⟨t, executed, fb, flag, regs, -, frame⟩ := exec_drw_spec (x := x) (y := y) range
  have index : t.I = s.I := by rw [frame.1]
  have config : t.cfg = s.cfg := by rw [frame.1]
  have same : t.drawnCells x y n.val = s.drawnCells x y n.val := by
    simp only [State.drawnCells, State.bytesAtIndex, config, regs x hx, regs y hy, index, frame.2]
  obtain ⟨u, executed', fb', flag', -⟩ := exec_drw_spec (s := t) (x := x) (y := y) (n := n) (by rwa [DrawInRange, index])
  rw [same, fb] at fb' flag'
  have second : u.reg VF = 1 ↔ ∃ k ∈ s.drawnCells x y n.val, Framebuffer.lit s.fb k = false := by
    rw [flag', flagByte_eq_one_iff, xorCells_collision_twice s.fb distinct]
  refine ⟨t, u, executed, executed', by rw [fb', xorCells_twice inv.fb inside distinct], ?_, ?_⟩
  · rw [second]
    constructor
    · rintro ⟨k, drawn, dark⟩
      obtain ⟨c, r, on, rfl⟩ := mem_drawnCells.1 drawn
      exact ⟨c, r, on, dark⟩
    · rintro ⟨c, r, on, dark⟩
      exact ⟨_, mem_drawnCells.2 ⟨c, r, on, rfl⟩, dark⟩
  · rintro ⟨c, r, on⟩
    have drawn := mem_drawnCells.2 ⟨c, r, on, rfl⟩
    cases lit : Framebuffer.lit s.fb (r * s.cfg.displayW + c) with
    | false => exact Or.inr (second.2 ⟨_, drawn, lit⟩)
    | true =>
      left
      rw [flag, flagByte_eq_one_iff, xorCells_collision _ _ distinct]
      exact ⟨_, drawn, lit⟩

end Sys2Proof.Machine
end
